-- ==== Sys2Proof/Word.lean ====
section
/-! DEFINITION. The word types of the machine (`00_scope.md` R5, R7, R8). -/

namespace Sys2Proof

/-- A memory byte, a general register, a timer (R5): 8 bits. -/
abbrev Byte := BitVec 8

/-- An instruction word, `PC`, `I` or a stack slot (R5): 16 bits. -/
abbrev Word := BitVec 16

/-- The address field `NNN` of an instruction (R72): 12 bits. -/
abbrev Addr12 := BitVec 12

/-- A 4-bit field of an instruction word that is only bits (a primary key, ignored bits). -/
abbrev Nibble := BitVec 4

/-- The name of a general register, of a key, or a count 0..15 (R20, R32, R72): every 4-bit field names one. -/
abbrev Reg := Fin 16

/-- `FLAG_REG`, register VF (R5, R21). -/
abbrev flagReg : Reg := 15

end Sys2Proof
end

