-- ==== Sys2Proof/Syntax.lean ====
section
/-! DEFINITION. The instructions: one constructor per row of `spec/opcode_table.json`
(`30_encoding.md` R70 to R80). Bits a handler ignores (R82) are fields too, so that no bit of a word is lost. -/

namespace Sys2Proof

/-- The 34 instructions and the four dispatch-miss rows, in the opcode table's order. -/
inductive Instr where
  | cls (ignored : BitVec 8)
  | ret (ignored : BitVec 8)
  | jp (nnn : Addr12)
  | call (nnn : Addr12)
  | seImm (x : Reg) (kk : Byte)
  | sneImm (x : Reg) (kk : Byte)
  | seReg (x y : Reg) (ignored : Nibble)
  | ldImm (x : Reg) (kk : Byte)
  | addImm (x : Reg) (kk : Byte)
  | ldReg (x y : Reg)
  | orReg (x y : Reg)
  | andReg (x y : Reg)
  | xorReg (x y : Reg)
  | addReg (x y : Reg)
  | sub (x y : Reg)
  | shr (x : Reg) (ignored : Nibble)
  | subn (x y : Reg)
  | shl (x : Reg) (ignored : Nibble)
  | sneReg (x y : Reg) (ignored : Nibble)
  | ldI (nnn : Addr12)
  | jpV0 (nnn : Addr12)
  | rnd (x : Reg) (kk : Byte)
  | drw (x y n : Reg)
  | skp (x : Reg) (ignored : Nibble)
  | sknp (x : Reg) (ignored : Nibble)
  | ldVxDt (x : Reg)
  | ldVxK (x : Reg)
  | ldDtVx (x : Reg)
  | ldStVx (x : Reg)
  | addIVx (x : Reg)
  | ldFVx (x : Reg)
  | ldBVx (x : Reg)
  | ldMemVx (x : Reg)
  | ldVxMem (x : Reg)
  | nop0 (ignored : Addr12)
  | nop8 (ignored : Addr12)
  | nopE (ignored : Addr12)
  | nopF (ignored : Addr12)
  deriving DecidableEq, Repr

end Sys2Proof
end

