-- ==== Sys2Proof/WellFormed.lean ====
section
/-! DEFINITION. Which terms of `Instr` stand for a word: a dispatch-miss term must hold a key that no
secondary table has (`30_encoding.md` R75 to R79). Every other constructor's fields admit every value. -/

namespace Sys2Proof

/-- The keys `N` of family 0x0's secondary table (R75). -/
abbrev hasKey0 (n : Nibble) : Bool := n ∈ [0x0#4, 0xE#4]

/-- The keys `N` of family 0x8's secondary table (R76). -/
abbrev hasKey8 (n : Nibble) : Bool :=
  n ∈ [0x0#4, 0x1#4, 0x2#4, 0x3#4, 0x4#4, 0x5#4, 0x6#4, 0x7#4, 0xE#4]

/-- The keys `N` of family 0xE's secondary table (R77). -/
abbrev hasKeyE (n : Nibble) : Bool := n ∈ [0x1#4, 0xE#4]

/-- The keys `KK` of family 0xF's secondary table (R78). -/
abbrev hasKeyF (kk : Byte) : Bool :=
  kk ∈ [0x07#8, 0x0A#8, 0x15#8, 0x18#8, 0x1E#8, 0x29#8, 0x33#8, 0x55#8, 0x65#8]

/-- A well-formed instruction: one that some word encodes. -/
def Instr.wf : Instr → Bool
  | .nop0 g => !hasKey0 (g.extractLsb' 0 4)
  | .nop8 g => !hasKey8 (g.extractLsb' 0 4)
  | .nopE g => !hasKeyE (g.extractLsb' 0 4)
  | .nopF g => !hasKeyF (g.extractLsb' 0 8)
  | .cls _ | .ret _ | .jp _ | .call _ | .seImm _ _ | .sneImm _ _ | .seReg _ _ _ | .ldImm _ _
  | .addImm _ _ | .ldReg _ _ | .orReg _ _ | .andReg _ _ | .xorReg _ _ | .addReg _ _ | .sub _ _
  | .shr _ _ | .subn _ _ | .shl _ _ | .sneReg _ _ _ | .ldI _ | .jpV0 _ | .rnd _ _ | .drw _ _ _
  | .skp _ _ | .sknp _ _ | .ldVxDt _ | .ldVxK _ | .ldDtVx _ | .ldStVx _ | .addIVx _ | .ldFVx _
  | .ldBVx _ | .ldMemVx _ | .ldVxMem _ => true

end Sys2Proof
end

