-- ==== Sys2Proof/Decode.lean ====
section
/-! DEFINITION. The two-level dispatcher of `30_encoding.md` (R72, R74 to R79) as a decoder, and the encoder
written from the same tables. Every 16-bit word decodes (R82); only a byte list too short to hold one is refused. -/

namespace Sys2Proof

/-! ### Fields of a word (R72) -/

/-- `op = OPC[15:12]`, the primary key. -/
def opField (w : Word) : Nibble := w.extractLsb' 12 4

/-- `X = OPC[11:8]`. -/
def xField (w : Word) : Reg := (w.extractLsb' 8 4).toFin

/-- `Y = OPC[7:4]`. -/
def yField (w : Word) : Reg := (w.extractLsb' 4 4).toFin

/-- `OPC[7:4]` where a handler ignores it (R82). -/
def midField (w : Word) : Nibble := w.extractLsb' 4 4

/-- `N = OPC[3:0]`, as the secondary key or ignored bits. -/
def nField (w : Word) : Nibble := w.extractLsb' 0 4

/-- `KK = OPC[7:0]`. -/
def kkField (w : Word) : Byte := w.extractLsb' 0 8

/-- `NNN = OPC[11:0]`. -/
def nnnField (w : Word) : Addr12 := w.extractLsb' 0 12

/-- `OPC[11:4]`, the bits CLS and RET ignore (R75). -/
def highField (w : Word) : BitVec 8 := w.extractLsb' 4 8

/-! ### Decoding -/

/-- Secondary table of family 0x0, key `N` (R75). -/
def decodeFamily0 (w : Word) : Instr :=
  match nField w with
  | 0x0 => .cls (highField w)
  | 0xE => .ret (highField w)
  | _ => .nop0 (nnnField w)

/-- Secondary table of family 0x8, key `N` (R76). -/
def decodeFamily8 (w : Word) : Instr :=
  match nField w with
  | 0x0 => .ldReg (xField w) (yField w)
  | 0x1 => .orReg (xField w) (yField w)
  | 0x2 => .andReg (xField w) (yField w)
  | 0x3 => .xorReg (xField w) (yField w)
  | 0x4 => .addReg (xField w) (yField w)
  | 0x5 => .sub (xField w) (yField w)
  | 0x6 => .shr (xField w) (midField w)
  | 0x7 => .subn (xField w) (yField w)
  | 0xE => .shl (xField w) (midField w)
  | _ => .nop8 (nnnField w)

/-- Secondary table of family 0xE, key `N` (R77). -/
def decodeFamilyE (w : Word) : Instr :=
  match nField w with
  | 0xE => .skp (xField w) (midField w)
  | 0x1 => .sknp (xField w) (midField w)
  | _ => .nopE (nnnField w)

/-- Secondary table of family 0xF, key `KK` (R78). -/
def decodeFamilyF (w : Word) : Instr :=
  match kkField w with
  | 0x07 => .ldVxDt (xField w)
  | 0x0A => .ldVxK (xField w)
  | 0x15 => .ldDtVx (xField w)
  | 0x18 => .ldStVx (xField w)
  | 0x1E => .addIVx (xField w)
  | 0x29 => .ldFVx (xField w)
  | 0x33 => .ldBVx (xField w)
  | 0x55 => .ldMemVx (xField w)
  | 0x65 => .ldVxMem (xField w)
  | _ => .nopF (nnnField w)

/-- Primary dispatch on the top nibble (R74): a pure function of the word's bits (R81). The last arm is 0xF. -/
def decodeWord (w : Word) : Instr :=
  match opField w with
  | 0x0 => decodeFamily0 w
  | 0x1 => .jp (nnnField w)
  | 0x2 => .call (nnnField w)
  | 0x3 => .seImm (xField w) (kkField w)
  | 0x4 => .sneImm (xField w) (kkField w)
  | 0x5 => .seReg (xField w) (yField w) (nField w)
  | 0x6 => .ldImm (xField w) (kkField w)
  | 0x7 => .addImm (xField w) (kkField w)
  | 0x8 => decodeFamily8 w
  | 0x9 => .sneReg (xField w) (yField w) (nField w)
  | 0xA => .ldI (nnnField w)
  | 0xB => .jpV0 (nnnField w)
  | 0xC => .rnd (xField w) (kkField w)
  | 0xD => .drw (xField w) (yField w) (nField w).toFin
  | 0xE => decodeFamilyE w
  | _ => decodeFamilyF w

/-- Why bytes hold no instruction: only that there are fewer than two (R70, R82). -/
inductive DecodeError where
  /-- Fewer than two bytes are given. Safe: the machine itself always fetches two (R90). -/
  | truncated
  deriving DecidableEq, Repr

/-- The word two fetched bytes make: the first byte is the high one (R55). -/
def wordOfBytes (hi lo : Byte) : Word := hi ++ lo

/-- The instruction at the front of a byte list and the bytes after it (R55, R70). -/
def decode : List Byte → Except DecodeError (Instr × List Byte)
  | hi :: lo :: rest => .ok (decodeWord (wordOfBytes hi lo), rest)
  | [_] | [] => .error .truncated

/-! ### Encoding -/

/-- A register number or count as a nibble. -/
def nibble (x : Reg) : Nibble := BitVec.ofFin x

/-- Format NNN (R71). -/
def formatNNN (op : Nibble) (nnn : Addr12) : Word := op ++ nnn

/-- Format XKK (R71), and XSUB for family 0xF. -/
def formatXKK (op : Nibble) (x : Reg) (kk : Byte) : Word := op ++ nibble x ++ kk

/-- Format XYN (R71), and XSUB for family 0xE. -/
def formatXYN (op : Nibble) (x : Reg) (y n : Nibble) : Word := op ++ nibble x ++ y ++ n

/-- Format NOX (R71). -/
def formatNOX (ignored : BitVec 8) (n : Nibble) : Word := (0x0 : Nibble) ++ ignored ++ n

/-- The word of an instruction (R71, R74 to R78). -/
def encode : Instr → Word
  | .cls g => formatNOX g 0x0
  | .ret g => formatNOX g 0xE
  | .jp nnn => formatNNN 0x1 nnn
  | .call nnn => formatNNN 0x2 nnn
  | .seImm x kk => formatXKK 0x3 x kk
  | .sneImm x kk => formatXKK 0x4 x kk
  | .seReg x y g => formatXYN 0x5 x (nibble y) g
  | .ldImm x kk => formatXKK 0x6 x kk
  | .addImm x kk => formatXKK 0x7 x kk
  | .ldReg x y => formatXYN 0x8 x (nibble y) 0x0
  | .orReg x y => formatXYN 0x8 x (nibble y) 0x1
  | .andReg x y => formatXYN 0x8 x (nibble y) 0x2
  | .xorReg x y => formatXYN 0x8 x (nibble y) 0x3
  | .addReg x y => formatXYN 0x8 x (nibble y) 0x4
  | .sub x y => formatXYN 0x8 x (nibble y) 0x5
  | .shr x g => formatXYN 0x8 x g 0x6
  | .subn x y => formatXYN 0x8 x (nibble y) 0x7
  | .shl x g => formatXYN 0x8 x g 0xE
  | .sneReg x y g => formatXYN 0x9 x (nibble y) g
  | .ldI nnn => formatNNN 0xA nnn
  | .jpV0 nnn => formatNNN 0xB nnn
  | .rnd x kk => formatXKK 0xC x kk
  | .drw x y n => formatXYN 0xD x (nibble y) (nibble n)
  | .skp x g => formatXYN 0xE x g 0xE
  | .sknp x g => formatXYN 0xE x g 0x1
  | .ldVxDt x => formatXKK 0xF x 0x07
  | .ldVxK x => formatXKK 0xF x 0x0A
  | .ldDtVx x => formatXKK 0xF x 0x15
  | .ldStVx x => formatXKK 0xF x 0x18
  | .addIVx x => formatXKK 0xF x 0x1E
  | .ldFVx x => formatXKK 0xF x 0x29
  | .ldBVx x => formatXKK 0xF x 0x33
  | .ldMemVx x => formatXKK 0xF x 0x55
  | .ldVxMem x => formatXKK 0xF x 0x65
  | .nop0 g => formatNNN 0x0 g
  | .nop8 g => formatNNN 0x8 g
  | .nopE g => formatNNN 0xE g
  | .nopF g => formatNNN 0xF g

/-- The high and the low byte of a word, as memory holds them: high byte at the lower address (R55). -/
def bytesOfWord (w : Word) : List Byte := [w.extractLsb' 8 8, w.extractLsb' 0 8]

/-- The two bytes of an instruction in memory order. -/
def encodeBytes (i : Instr) : List Byte := bytesOfWord (encode i)

/-- The word of an opcode-table row given as a number of `nbits` bits; the bits above are 0. -/
def tableWord (nbits w : Nat) : Word := BitVec.ofNat 16 (w % 2 ^ nbits)

/-- What the decoder reads from an opcode-table word, laid out in memory order (R55). -/
def decodeTableWord (nbits w : Nat) : Option Instr :=
  match decode (bytesOfWord (tableWord nbits w)) with
  | .ok (i, _) => some i
  | .error _ => none

end Sys2Proof
end

