-- ==== Sys2Proof/Config.lean ====
section
/-! DEFINITION. What the spec leaves open: the parameters of `00_scope.md` R6 and the random byte of
`10_state.md` R36, as constants without a value, so that nothing proved can depend on one. -/

namespace Sys2Proof.Config

/-- `GLYPH_BASE` (R6, D10; log entry 8): any address with `GLYPH_BASE + 80 ≤ 0x200`, that is 0..432.
No value: a free value of the implementation. -/
opaque glyphBaseIndex : Fin 433

/-- `GLYPH_BASE` as an address. -/
def glyphBase : Nat := glyphBaseIndex.val

/-- `GLYPH_TABLE` (R6, D11; log entry 9): the 80 glyph bytes, without a value. -/
opaque glyphTable : Fin 80 → Byte

/-- `FB_ROW_BYTES` (R6, R242, D24; log entry 10): the row length in bytes shown to the renderer, without a value.
No rule of the core reads it. -/
opaque fbRowBytes : Nat

/-- `draw8()` (R36, D15; log entry 7): the random byte of the n-th draw, a free value for every n. -/
opaque draw8 : Nat → Byte

end Sys2Proof.Config
end

