-- ==== Sys2Proof/Machine/State.lean ====
section
/-! DEFINITION. The machine's state as plain data (`10_state.md` R20 to R38), its faults, the host's refusals,
and the state after construction (`70_reset_and_hazards.md` R260). -/

namespace Sys2Proof.Machine

/-- The fault kinds of `60_exceptions.md` R221. Each is recorded in `FAULT` and halts the core (R220, R236):
a cycle that raises one answers a next state whose `FAULT` holds it (log entry 12), and no step or
instruction ever answers `Host.Outcome.fault`. All are safe: the model stops where the source calls the
behaviour undefined (D3 to D9; log entry 18). -/
inductive Fault where
  /-- Raised by the cycle's fetch when `PC + 1 > 0xFFF` (R222). Safe. -/
  | fetchFault
  /-- Raised by a data access above 0xFFF: DRW, LD B, dump, load (R223). Safe. -/
  | memoryFault
  /-- Raised by a data write below 0x200: LD B, dump (R223). Safe. -/
  | reservedWriteFault
  /-- Raised by CALL with 16 frames active (R224). Safe. -/
  | stackOverflow
  /-- Raised by RET with no frame active (R225). Safe. -/
  | stackUnderflow
  /-- Raised by SKP and SKNP when `V[X] > 15` (R226). Safe. -/
  | keyIndexFault
  /-- Raised by DRW when a set sprite bit maps to a cell index of 2048 or more (R227). Safe. -/
  | framebufferFault
  deriving DecidableEq, Repr

/-- Why the machine has no transition. -/
inductive Refusal where
  /-- An instruction without a meaning: raised by an arm of `exec` that is rejected by name; there is none. Safe. -/
  | notModelled (mnemonic : String)
  /-- Raised by the host action LoadProgram with more than 3584 bytes: `LoadTooLarge` (R263, R265). Safe:
  the load is rejected whole. No instruction raises it. -/
  | loadTooLarge
  /-- Raised by the host action LoadProgram a second time or after a step (R264). Safe: the host breaks the
  machine's contract. No instruction raises it. -/
  | loadNotAdmitted
  deriving DecidableEq, Repr

/-- A fault record `(code, pc, opcode, info)` (R37): `opcode` is `none` for a fetch fault, and `info` is the
number the fault's rule names, an unbounded natural number. -/
structure FaultRecord where
  code : Fault
  pc : Word
  opcode : Option Word
  info : Nat
  deriving DecidableEq, Repr

/-- Memory as the listed bytes, in the canonical form `Memory.wf` of `Machine/Ops.lean`; an unlisted address
reads as `background` there. -/
abbrev Memory := List Host.Cell

/-- Everything the spec gives the machine, and the model's own counter `draws`. -/
structure State where
  /-- `V[0]`..`V[15]` (R20). -/
  v : Vector Byte 16
  /-- `PC` (R23). -/
  pc : Word
  /-- The index register `I` (R28). -/
  i : Word
  /-- `SP`, an 8-bit register whose legal values are 0..16 (R29, §9; log entry 19). -/
  sp : Fin 17
  /-- `S[0]`..`S[15]` (R30). -/
  stack : Vector Word 16
  /-- `DT` (R31). -/
  dt : Byte
  /-- `ST` (R31). -/
  st : Byte
  /-- `KEY[0]`..`KEY[15]` (R32). -/
  key : Vector Bool 16
  /-- `FB[0]`..`FB[2047]`, row-major, `true` = on (R33). -/
  fb : Vector Bool 2048
  /-- `OPC`, the opcode latch (R34). -/
  opc : Word
  /-- Memory (R50). -/
  mem : Memory
  /-- `FAULT` (R37). -/
  fault : Option FaultRecord
  /-- Whether LoadProgram has been admitted (R263, §9). -/
  loaded : Bool
  /-- Whether a cycle has completed (R264, §9; log entry 17). -/
  stepped : Bool
  /-- The model's own: how many random bytes have been drawn (R36; log entry 7). -/
  draws : Nat
  deriving DecidableEq, Repr

/-- A launch draw: the values construction leaves unspecified (R260, D12, D14). -/
structure Launch where
  v : Vector Byte 16
  i : Word
  stack : Vector Word 16
  dt : Byte
  st : Byte
  key : Vector Bool 16
  fb : Vector Bool 2048
  opc : Word
  draws : Nat
  deriving DecidableEq, Repr

/-- The state after construction for a launch draw (R260): no byte is listed, so memory reads as the glyph table
at `GLYPH_BASE` and 0 elsewhere. -/
def State.construct (d : Launch) : State where
  v := d.v
  pc := 0x200
  i := d.i
  sp := 0
  stack := d.stack
  dt := d.dt
  st := d.st
  key := d.key
  fb := d.fb
  opc := d.opc
  mem := []
  fault := none
  loaded := false
  stepped := false
  draws := d.draws

/-- DESIGN CHOICE (log entries 1 to 7; unsafe): the draw with every value 0, every key released and every cell off. -/
def Launch.zero : Launch where
  v := Vector.replicate 16 0
  i := 0
  stack := Vector.replicate 16 0
  dt := 0
  st := 0
  key := Vector.replicate 16 false
  fb := Vector.replicate 2048 false
  opc := 0
  draws := 0

/-- The machine right after reset, which is construction (R260): the launch draw `Launch.zero`. -/
def State.reset : State := State.construct Launch.zero

end Sys2Proof.Machine
end

