-- ==== Sys2Proof/Machine/Ops.lean ====
section
/-! DEFINITION. The named operations over memory, registers, stack, framebuffer, keypad and timers, taking a
fault, and the parts of the cycle around a handler (`20_memory.md`, `10_state.md`, `60_exceptions.md`,
`30_encoding.md` R90). -/

namespace Sys2Proof.Machine

/-! ### Memory (R50 to R54) -/

/-- What an unlisted address reads as (R260, D13; log entry 11): the glyph table's byte inside
`GLYPH_BASE .. GLYPH_BASE + 79`, which lies below 0x200 (R52), and 0 everywhere else. -/
def background (a : Nat) : Byte :=
  if a < 0x200 then
    if h : Config.glyphBase ≤ a ∧ a - Config.glyphBase < 80 then
      Config.glyphTable ⟨a - Config.glyphBase, h.2⟩
    else 0
  else 0

/-- The byte at an address, with no check (`mem[a]`). -/
def Memory.read : Memory → Nat → Byte
  | [], a => background a
  | (k, b) :: m, a => if k = a then b else Memory.read m a

/-- The listing without an address. -/
def Memory.erase (m : Memory) (a : Nat) : Memory := m.filter fun c => c.1 ≠ a

/-- A cell put at its place in a rising listing. -/
def Memory.insert : Memory → Nat → Byte → Memory
  | [], a, b => [(a, b)]
  | (k, c) :: m, a, b => if a < k then (a, b) :: (k, c) :: m else (k, c) :: Memory.insert m a b

/-- `mem[a] <- b` with no check: a byte equal to what the address reads as unlisted is not listed. -/
def Memory.write (m : Memory) (a : Nat) (b : Byte) : Memory :=
  if b = background a then m.erase a else (m.erase a).insert a b

/-- The canonical form: addresses strictly rising and inside 0x000..0xFFF (R50), and no entry equal to what
its address reads as unlisted. -/
abbrev Memory.wf (m : Memory) : Prop :=
  m.Pairwise (fun c d => c.1 < d.1) ∧ ∀ c ∈ m, c.1 < 4096 ∧ c.2 ≠ background c.1

/-- What a `raise F(info)` carries (R11). -/
abbrev Raise := Fault × Nat

/-- `MemRead(a, 1)` (R53). -/
def memRead (s : State) (a : Nat) : Except Raise Byte :=
  if a > 0xFFF then .error (.memoryFault, a) else .ok (s.mem.read a)

/-- `mem[a] <- b` in a state, with no check. -/
def pokeMem (s : State) (a : Nat) (b : Byte) : State := { s with mem := s.mem.write a b }

/-- `MemWrite(a, 1, b)` (R54): the bound check precedes the reserved check (R228). -/
def memWrite (s : State) (a : Nat) (b : Byte) : Except Raise State :=
  if a > 0xFFF then .error (.memoryFault, a)
  else if a < 0x200 then .error (.reservedWriteFault, a)
  else .ok (pokeMem s a b)

/-- `MemWrite` of each pair in order; the first that raises ends it (R228). -/
def storeAll : List (Nat × Byte) → State → Except Raise State
  | [], s => .ok s
  | (a, b) :: rest, s =>
    match memWrite s a b with
    | .error e => .error e
    | .ok t => storeAll rest t

/-! ### General registers (R20) -/

/-- `V[x]`. -/
def readV (s : State) (x : Reg) : Byte := s.v[x]

/-- `V[x] <- b`. -/
def writeV (s : State) (x : Reg) (b : Byte) : State := { s with v := s.v.set x.val b x.isLt }

/-- `V[r] <- MemRead(base + r, 1)` for each register in order (R165). -/
def loadRegs (base : Nat) : List Reg → State → Except Raise State
  | [], s => .ok s
  | r :: rest, s =>
    match memRead s (base + r.val) with
    | .error e => .error e
    | .ok b => loadRegs base rest (writeV s r b)

/-! ### Program counter and stack (R23, R29, R30) -/

/-- `PC <- target`. -/
def setPc (s : State) (target : Word) : State := { s with pc := target }

/-- A skip whose condition is `c` (R103): `PC <- PC + 2` when it holds. -/
def skipIf (c : Bool) (s : State) : State := if c then setPc s (s.pc + 2) else s

/-- `S[k]`. -/
def slotAt (s : State) (k : Fin 16) : Word := s.stack[k]

/-- `S[SP] <- PC; SP <- SP + 1`, or StackOverflow with 16 frames active (R102, R224). -/
def pushPc (s : State) : Except Raise State :=
  if h : s.sp.val = 16 then .error (.stackOverflow, 16)
  else .ok { s with
    stack := s.stack.set s.sp.val s.pc (by omega)
    sp := ⟨s.sp.val + 1, by omega⟩ }

/-- `SP <- SP - 1; PC <- S[SP]`, or StackUnderflow with no frame active (R100, R225). -/
def popPc (s : State) : Except Raise State :=
  if h : s.sp.val = 0 then .error (.stackUnderflow, 0)
  else .ok { s with
    sp := ⟨s.sp.val - 1, by omega⟩
    pc := slotAt s ⟨s.sp.val - 1, by omega⟩ }

/-! ### Index register, timers (R28, R31) -/

/-- `I <- w`. -/
def setI (s : State) (w : Word) : State := { s with i := w }

/-- `DT <- b`. -/
def setDt (s : State) (b : Byte) : State := { s with dt := b }

/-- `ST <- b`. -/
def setSt (s : State) (b : Byte) : State := { s with st := b }

/-- A countdown by one, never below zero (R31, R230). -/
def countDown (t : Byte) : Byte := if t > 0 then t - 1 else t

/-- The timer tick at the end of a cycle (R230). -/
def tick (s : State) : State := { s with dt := countDown s.dt, st := countDown s.st }

/-! ### Keypad (R32) -/

/-- `KEY[k]`. -/
def keyAt (s : State) (k : Reg) : Bool := s.key[k]

/-- `KEY[k]`, or KeyIndexFault when `k` names no key (R226). -/
def readKey (s : State) (k : Byte) : Except Raise Bool :=
  if h : k.toNat > 15 then .error (.keyIndexFault, k.toNat)
  else .ok (keyAt s ⟨k.toNat, by omega⟩)

/-- The logical keys in ascending order (R203). -/
def allKeys : List Reg := [0, 1, 2, 3, 4, 5, 6, 7, 8, 9, 10, 11, 12, 13, 14, 15]

/-- The first pressed key, lowest index first (R203). -/
def firstPressed (s : State) : Option Reg := allKeys.find? fun k => keyAt s k

/-! ### Framebuffer (R33) -/

/-- `FB[k]`. -/
def readCell (s : State) (k : Fin 2048) : Bool := s.fb[k]

/-- Every cell off (R180). -/
def clearFb (s : State) : State := { s with fb := Vector.replicate 2048 false }

/-- `FB[k] <- not FB[k]` (R181). -/
def toggleCell (s : State) (k : Fin 2048) : State :=
  { s with fb := s.fb.set k.val (!readCell s k) k.isLt }

/-! ### Random byte (R36) -/

/-- `draw8()`: the free value of this draw, and the state in which the next draw is another one (log entry 7). -/
def draw8 (s : State) : Byte × State := (Config.draw8 s.draws, { s with draws := s.draws + 1 })

/-! ### Taking a fault (R92, R220) -/

/-- `FAULT <- (code, pc, opcode, info)`, and nothing else (R220). -/
def recordFault (s : State) (r : Raise) (pc : Word) (opcode : Option Word) : State :=
  { s with fault := some ⟨r.1, pc, opcode, r.2⟩ }

/-- A raise inside a handler, seen from the handler's entry: `OPC` holds the fetched word and `PC` the
instruction's address plus 2 (R23), so the record's `pc` is `PC - 2` (R37). None of the handler's writes is kept. -/
def raiseFault (s : State) (r : Raise) : State := recordFault s r (s.pc - 2) (some s.opc)

/-- The cycle given up (R92, R220): the state the cycle began with, with the fault record of `after`. -/
def abandonCycle (start after : State) : State := { start with fault := after.fault }

/-- A handler's end: its writes, or the raise it executed. Both are next states (log entry 12). -/
def conclude (s : State) (r : Except Raise State) : Host.Outcome State Fault Refusal :=
  .next (match r with
    | .ok t => t
    | .error e => raiseFault s e)

/-! ### The cycle around the handler (R90) -/

/-- Step 1 of the cycle: the word at `PC`, high byte first, or FetchFault (R55, R90, R222). -/
def fetchWord (s : State) : Except Raise Word :=
  if s.pc.toNat + 1 > 0xFFF then .error (.fetchFault, s.pc.toNat)
  else .ok (wordOfBytes (s.mem.read s.pc.toNat) (s.mem.read (s.pc.toNat + 1)))

/-- `OPC <- w; PC <- PC + 2`: the latch and step 2 of the cycle (R90). -/
def latchAndAdvance (s : State) (w : Word) : State := { s with opc := w, pc := s.pc + 2 }

/-- The end of a cycle that began in `start` and whose handler left `after` (R90 step 4, R92): abandoned if a fault
was raised, else ticked. `stepped` remembers that a cycle completed (R264). -/
def endCycle (start after : State) : State :=
  match after.fault with
  | some _ => abandonCycle start after
  | none => { tick after with stepped := true }

end Sys2Proof.Machine
end

