-- ==== Sys2Proof/Machine/Operands.lean ====
section
/-! DEFINITION. The operand forms: zero-extended immediates (`30_encoding.md` R73), index-relative addresses
(`43_index_memory.md` R166), jump offsets, glyph addresses, decimal digits, register ranges and the
draw geometry (`44_display.md` R182). -/

namespace Sys2Proof.Machine

/-- `zext_16(NNN)` (R73). -/
def targetOf (nnn : Addr12) : Word := nnn.setWidth 16

/-- `V[0] + NNN`, exact: at most 0x10FE (R108). -/
def offsetTarget (s : State) (nnn : Addr12) : Word := (readV s 0).setWidth 16 + nnn.setWidth 16

/-- The effective address `I + k`, an unbounded natural number (R166). -/
def effAddr (s : State) (k : Nat) : Nat := s.i.toNat + k

/-- `(I + V[x]) mod 65536` (R161). -/
def indexSum (s : State) (x : Reg) : Word := s.i + (readV s x).setWidth 16

/-- `(GLYPH_BASE + 5 * V[x]) mod 65536` (R162). -/
def glyphAddress (s : State) (x : Reg) : Word :=
  BitVec.ofNat 16 (Config.glyphBase + 5 * (readV s x).toNat)

/-- The stores of LD B,Vx: hundreds, tens, ones at `I`, `I + 1`, `I + 2` (R163). -/
def bcdStores (s : State) (x : Reg) : List (Nat × Byte) :=
  [(effAddr s 0, readV s x / 100), (effAddr s 1, (readV s x / 10) % 10), (effAddr s 2, readV s x % 10)]

/-- `V0 .. V[x]`, ascending (R164, R165). -/
def regsThrough (x : Reg) : List Reg := allKeys.filter fun r => r.val ≤ x.val

/-- The stores of LD [I],Vx (R164). -/
def dumpStores (s : State) (x : Reg) : List (Nat × Byte) :=
  (regsThrough x).map fun r => (effAddr s r.val, readV s r)

/-- The draw origin's column, `V[x] mod 64` (R181). -/
def originColumn (s : State) (x : Reg) : Nat := (readV s x).toNat % 64

/-- The draw origin's row, `V[y] mod 32` (R181). -/
def originRow (s : State) (y : Reg) : Nat := (readV s y).toNat % 32

/-- The linear cell of a sprite pixel, unwrapped (R182). -/
def spriteCell (xPos yPos row col : Nat) : Nat := (yPos + row) * 64 + (xPos + col)

/-- The sprite bit of a column: bit 7 is column 0 (R181). -/
def spriteBit (b : Byte) (col : Nat) : Bool := b.getLsbD (7 - col)

/-- `0 .. n-1`, ascending: the rows of a sprite (R181). -/
def spriteRows (n : Reg) : List Nat := List.range n.val

/-- `0 .. 7`, ascending: the columns of a sprite (R181). -/
def spriteColumns : List Nat := [0, 1, 2, 3, 4, 5, 6, 7]

end Sys2Proof.Machine
end

