-- ==== Sys2Proof/Machine/Flags.lean ====
section
/-! DEFINITION. The flag computations: what VF takes (`10_state.md` R21, `42_alu.md` R136 to R142,
`44_display.md` R181). -/

namespace Sys2Proof.Machine

/-- Carry of an 8-bit add: 1 exactly when the unbounded sum exceeds 255 (R136, R142). -/
def carryFlag (a b : Byte) : Byte := if a.toNat + b.toNat > 255 then 1 else 0

/-- The subtract flag: 1 exactly when the minuend is strictly greater (R137, R139, R142; `90_conflicts.md` C1). -/
def greaterFlag (a b : Byte) : Byte := if a.toNat > b.toNat then 1 else 0

/-- The bit SHR shifts out (R138). -/
def lowBitFlag (a : Byte) : Byte := a &&& 1

/-- The bit SHL shifts out (R140). -/
def highBitFlag (a : Byte) : Byte := (a &&& 0x80) >>> 7

/-- `VF <- f`. -/
def setFlag (s : State) (f : Byte) : State := writeV s flagReg f

/-- The collision flag of one drawn pixel: VF takes 1 when its cell is on, and is otherwise left alone (R181). -/
def noteCollision (s : State) (k : Fin 2048) : State := if readCell s k then setFlag s 1 else s

end Sys2Proof.Machine
end

