-- ==== Sys2Proof/Machine/Alu.lean ====
section
/-! DEFINITION. Register arithmetic, logic, shifts and random (`42_alu.md` R130 to R142). Statements run in the
order written and later ones read what earlier ones wrote (`00_scope.md` R11, D16; log entry 13). -/

namespace Sys2Proof.Machine

/-- LD Vx, KK (R130). -/
def execLdImm (x : Reg) (kk : Byte) (s : State) : Host.Outcome State Fault Refusal :=
  .next (writeV s x kk)

/-- ADD Vx, KK (R131): no flag effect. -/
def execAddImm (x : Reg) (kk : Byte) (s : State) : Host.Outcome State Fault Refusal :=
  .next (writeV s x (readV s x + kk))

/-- LD Vx, Vy (R132). -/
def execLdReg (x y : Reg) (s : State) : Host.Outcome State Fault Refusal :=
  .next (writeV s x (readV s y))

/-- OR Vx, Vy (R133). -/
def execOr (x y : Reg) (s : State) : Host.Outcome State Fault Refusal :=
  .next (writeV s x (readV s x ||| readV s y))

/-- AND Vx, Vy (R134). -/
def execAnd (x y : Reg) (s : State) : Host.Outcome State Fault Refusal :=
  .next (writeV s x (readV s x &&& readV s y))

/-- XOR Vx, Vy (R135). -/
def execXor (x y : Reg) (s : State) : Host.Outcome State Fault Refusal :=
  .next (writeV s x (readV s x ^^^ readV s y))

/-- ADD Vx, Vy (R136): the sum is taken before VF is written. -/
def execAddReg (x y : Reg) (s : State) : Host.Outcome State Fault Refusal :=
  .next (writeV (setFlag s (carryFlag (readV s x) (readV s y))) x (readV s x + readV s y))

/-- SUB Vx, Vy (R137): the difference reads V after the VF write. -/
def execSub (x y : Reg) (s : State) : Host.Outcome State Fault Refusal :=
  let t := setFlag s (greaterFlag (readV s x) (readV s y))
  .next (writeV t x (readV t x - readV t y))

/-- SHR Vx (R138): the Y field is ignored. -/
def execShr (x : Reg) (_ignored : Nibble) (s : State) : Host.Outcome State Fault Refusal :=
  let t := setFlag s (lowBitFlag (readV s x))
  .next (writeV t x (readV t x >>> 1))

/-- SUBN Vx, Vy (R139): the difference reads V after the VF write. -/
def execSubn (x y : Reg) (s : State) : Host.Outcome State Fault Refusal :=
  let t := setFlag s (greaterFlag (readV s y) (readV s x))
  .next (writeV t x (readV t y - readV t x))

/-- SHL Vx (R140): the Y field is ignored. -/
def execShl (x : Reg) (_ignored : Nibble) (s : State) : Host.Outcome State Fault Refusal :=
  let t := setFlag s (highBitFlag (readV s x))
  .next (writeV t x (readV t x <<< 1))

/-- RND Vx, KK (R141): one random byte per execution, masked. -/
def execRnd (x : Reg) (kk : Byte) (s : State) : Host.Outcome State Fault Refusal :=
  let d := draw8 s
  .next (writeV d.2 x (d.1 &&& kk))

end Sys2Proof.Machine
end

