-- ==== Sys2Proof/Machine/Control.lean ====
section
/-! DEFINITION. Control transfer (`41_control.md` R100 to R108). On entry `PC` is the instruction's address plus 2. -/

namespace Sys2Proof.Machine

/-- RET (R100). -/
def execRet (_ignored : BitVec 8) (s : State) : Host.Outcome State Fault Refusal :=
  conclude s (popPc s)

/-- JP NNN (R101). -/
def execJp (nnn : Addr12) (s : State) : Host.Outcome State Fault Refusal :=
  .next (setPc s (targetOf nnn))

/-- CALL NNN (R102): the pushed address is the advanced `PC`. -/
def execCall (nnn : Addr12) (s : State) : Host.Outcome State Fault Refusal :=
  conclude s (match pushPc s with
    | .error e => .error e
    | .ok t => .ok (setPc t (targetOf nnn)))

/-- SE Vx, KK (R104). -/
def execSeImm (x : Reg) (kk : Byte) (s : State) : Host.Outcome State Fault Refusal :=
  .next (skipIf (readV s x = kk) s)

/-- SNE Vx, KK (R105). -/
def execSneImm (x : Reg) (kk : Byte) (s : State) : Host.Outcome State Fault Refusal :=
  .next (skipIf (readV s x ≠ kk) s)

/-- SE Vx, Vy (R106): the low nibble is ignored. -/
def execSeReg (x y : Reg) (_ignored : Nibble) (s : State) : Host.Outcome State Fault Refusal :=
  .next (skipIf (readV s x = readV s y) s)

/-- SNE Vx, Vy (R107): the low nibble is ignored. -/
def execSneReg (x y : Reg) (_ignored : Nibble) (s : State) : Host.Outcome State Fault Refusal :=
  .next (skipIf (readV s x ≠ readV s y) s)

/-- JP V0, NNN (R108): the offset register is always V0. -/
def execJpV0 (nnn : Addr12) (s : State) : Host.Outcome State Fault Refusal :=
  .next (setPc s (offsetTarget s nnn))

end Sys2Proof.Machine
end

