-- ==== Sys2Proof/Machine/Display.lean ====
section
/-! DEFINITION. Framebuffer instructions (`44_display.md` R180 to R184). -/

namespace Sys2Proof.Machine

/-- CLS (R180). -/
def execCls (_ignored : BitVec 8) (s : State) : Host.Outcome State Fault Refusal :=
  .next (clearFb s)

/-- One set sprite bit at linear cell `k` (R181): FramebufferFault outside the array (R227), else the collision is
noted and the cell toggled. -/
def drawPixel (k : Nat) (s : State) : Except Raise State :=
  if h : k < 2048 then .ok (toggleCell (noteCollision s ⟨k, h⟩) ⟨k, h⟩)
  else .error (.framebufferFault, k)

/-- The columns of one sprite row, in order: a clear bit touches nothing (R181). -/
def drawColumns (b : Byte) (xPos yPos row : Nat) : List Nat → State → Except Raise State
  | [], s => .ok s
  | col :: rest, s =>
    if spriteBit b col then
      match drawPixel (spriteCell xPos yPos row col) s with
      | .error e => .error e
      | .ok t => drawColumns b xPos yPos row rest t
    else drawColumns b xPos yPos row rest s

/-- The rows of a sprite, in order: each reads its byte at `I + row` and draws its columns (R181). -/
def drawRows (xPos yPos : Nat) : List Nat → State → Except Raise State
  | [], s => .ok s
  | row :: rest, s =>
    match memRead s (effAddr s row) with
    | .error e => .error e
    | .ok b =>
      match drawColumns b xPos yPos row spriteColumns s with
      | .error e => .error e
      | .ok t => drawRows xPos yPos rest t

/-- DRW Vx, Vy, N (R181): the origin is taken from V before VF is cleared. -/
def execDrw (x y n : Reg) (s : State) : Host.Outcome State Fault Refusal :=
  conclude s (drawRows (originColumn s x) (originRow s y) (spriteRows n) (setFlag s 0))

end Sys2Proof.Machine
end

