-- ==== Sys2Proof/Machine/Index.lean ====
section
/-! DEFINITION. Index register and memory transfer (`43_index_memory.md` R160 to R166). A raise keeps no byte and
no register of the instruction (R92). -/

namespace Sys2Proof.Machine

/-- LD I, NNN (R160). -/
def execLdI (nnn : Addr12) (s : State) : Host.Outcome State Fault Refusal :=
  .next (setI s (targetOf nnn))

/-- ADD I, Vx (R161): mod 65536, no flag. -/
def execAddIVx (x : Reg) (s : State) : Host.Outcome State Fault Refusal :=
  .next (setI s (indexSum s x))

/-- LD F, Vx (R162): the formula for every value of `V[x]`. -/
def execLdFVx (x : Reg) (s : State) : Host.Outcome State Fault Refusal :=
  .next (setI s (glyphAddress s x))

/-- LD B, Vx (R163). -/
def execLdBVx (x : Reg) (s : State) : Host.Outcome State Fault Refusal :=
  conclude s (storeAll (bcdStores s x) s)

/-- LD [I], Vx (R164): `I` is not changed. -/
def execLdMemVx (x : Reg) (s : State) : Host.Outcome State Fault Refusal :=
  conclude s (storeAll (dumpStores s x) s)

/-- LD Vx, [I] (R165): `I` is not changed. -/
def execLdVxMem (x : Reg) (s : State) : Host.Outcome State Fault Refusal :=
  conclude s (loadRegs (effAddr s 0) (regsThrough x) s)

end Sys2Proof.Machine
end

