-- ==== Sys2Proof/Machine/Keypad.lean ====
section
/-! DEFINITION. Keypad and timer instructions (`45_keypad_timers.md` R200 to R205). The tick of the same cycle
follows the handler (`60_exceptions.md` R230). -/

namespace Sys2Proof.Machine

/-- SKP Vx (R200). -/
def execSkp (x : Reg) (_ignored : Nibble) (s : State) : Host.Outcome State Fault Refusal :=
  conclude s (match readKey s (readV s x) with
    | .error e => .error e
    | .ok pressed => .ok (skipIf pressed s))

/-- SKNP Vx (R201). -/
def execSknp (x : Reg) (_ignored : Nibble) (s : State) : Host.Outcome State Fault Refusal :=
  conclude s (match readKey s (readV s x) with
    | .error e => .error e
    | .ok pressed => .ok (skipIf (!pressed) s))

/-- LD Vx, DT (R202). -/
def execLdVxDt (x : Reg) (s : State) : Host.Outcome State Fault Refusal :=
  .next (writeV s x s.dt)

/-- LD Vx, K (R203): the lowest pressed key, or the same instruction again next cycle. -/
def execLdVxK (x : Reg) (s : State) : Host.Outcome State Fault Refusal :=
  .next (match firstPressed s with
    | some k => writeV s x (BitVec.ofNat 8 k.val)
    | none => setPc s (s.pc - 2))

/-- LD DT, Vx (R204). -/
def execLdDtVx (x : Reg) (s : State) : Host.Outcome State Fault Refusal :=
  .next (setDt s (readV s x))

/-- LD ST, Vx (R205). -/
def execLdStVx (x : Reg) (s : State) : Host.Outcome State Fault Refusal :=
  .next (setSt s (readV s x))

end Sys2Proof.Machine
end

