-- ==== Sys2Proof/Machine/Noop.lean ====
section
/-! DEFINITION. The no-op handler of a dispatch miss, one definition per family (`30_encoding.md` R79, R80):
it reads and writes no state; the cycle around it advances and ticks. -/

namespace Sys2Proof.Machine

/-- A miss in family 0x0 (R75, R80). -/
def execNop0 (_ignored : Addr12) (s : State) : Host.Outcome State Fault Refusal := .next s

/-- A miss in family 0x8 (R76, R80). -/
def execNop8 (_ignored : Addr12) (s : State) : Host.Outcome State Fault Refusal := .next s

/-- A miss in family 0xE (R77, R80). -/
def execNopE (_ignored : Addr12) (s : State) : Host.Outcome State Fault Refusal := .next s

/-- A miss in family 0xF (R78, R80). -/
def execNopF (_ignored : Addr12) (s : State) : Host.Outcome State Fault Refusal := .next s

end Sys2Proof.Machine
end

