-- ==== Sys2Proof/Machine/Step.lean ====
section
/-! DEFINITION. One Step of the core (`30_encoding.md` R90, R92; `60_exceptions.md` R236, R245). -/

namespace Sys2Proof.Machine

/-- The cycle (R90): halted cores do nothing (R236); a fetch fault is recorded without a word (R220); otherwise the
word is latched, `PC` advanced, one handler run, and the cycle ended by the tick or abandoned (R92). -/
def step (s : State) : Host.Outcome State Fault Refusal :=
  match s.fault with
  | some _ => .next s
  | none =>
    match fetchWord s with
    | .error e => .next (recordFault s e s.pc none)
    | .ok w =>
      match exec (decodeWord w) (latchAndAdvance s w) with
      | .next t => .next (endCycle s t)
      | .fault f => .fault f
      | .refused r => .refused r

/-- Where `withFetchWord` puts a word: at `PC`, or at the entry point 0x200 where nothing can be fetched at `PC`
(log entry 21). -/
def fetchPlace (s : State) : Word := if s.pc.toNat + 1 > 0xFFF then 0x200 else s.pc

/-- `s` with a word stored where the next step fetches, as a load from outside would (R263; log entries 16, 21):
a halted core is taken out of its fault, since a halted core fetches nothing (R236). -/
def State.withFetchWord (s : State) (nbits w : Nat) : State :=
  { pokeMem
      (pokeMem s (fetchPlace s).toNat ((tableWord nbits w).extractLsb' 8 8))
      ((fetchPlace s).toNat + 1) ((tableWord nbits w).extractLsb' 0 8) with
    pc := fetchPlace s
    fault := none }

end Sys2Proof.Machine
end

