-- ==== Sys2Proof/Machine/Assembly.lean ====
section
/-! DEFINITION. The assembler's words and the disassembler's text (`30_encoding.md` R83; log entries 23, 24). -/

namespace Sys2Proof.Machine

/-- The instruction whose word is the canonical one of R83: ignored bits at the values of its second column.
DESIGN CHOICE (log entry 24): SHR and SHL get y = 0 always, where R83's table keeps y for `SHR Vx, Vy` and `SHL Vx, Vy`
and its last paragraph says ignored bits zero. -/
def canonical (i : Instr) : Instr :=
  match i with
  | .cls _ => .cls 0x0E
  | .ret _ => .ret 0x0E
  | .seReg x y _ => .seReg x y 0
  | .sneReg x y _ => .sneReg x y 0
  | .shr x _ => .shr x 0
  | .shl x _ => .shl x 0
  | .skp x _ => .skp x 0x9
  | .sknp x _ => .sknp x 0xA
  | .jp _ | .call _ | .seImm _ _ | .sneImm _ _ | .ldImm _ _ | .addImm _ _ | .ldReg _ _ | .orReg _ _
  | .andReg _ _ | .xorReg _ _ | .addReg _ _ | .sub _ _ | .subn _ _ | .ldI _ | .jpV0 _ | .rnd _ _
  | .drw _ _ _ | .ldVxDt _ | .ldVxK _ | .ldDtVx _ | .ldStVx _ | .addIVx _ | .ldFVx _ | .ldBVx _
  | .ldMemVx _ | .ldVxMem _ | .nop0 _ | .nop8 _ | .nopE _ | .nopF _ => i

/-- The word an assembler emits (R83; log entries 14, 23, 24). -/
def assemble (i : Instr) : Word := encode (canonical i)

/-- One hexadecimal digit. -/
def hexDigit (d : Reg) : String := String.singleton (Nat.digitChar d.val).toUpper

/-- The last `k` hexadecimal digits of a number. -/
def hexDigits : Nat → Nat → String
  | 0, _ => ""
  | k + 1, n => hexDigits k (n / 16) ++ hexDigit (Fin.ofNat 16 n)

/-- A number: prefix `0x` and `k` digits (R83). -/
def hexText (k n : Nat) : String := "0x" ++ hexDigits k n

/-- A register: `V0` .. `VF` (R83). -/
def regText (x : Reg) : String := "V" ++ hexDigit x

/-- The text of an instruction, destination first (R83); a miss is raw data. -/
def disassemble (i : Instr) : String :=
  match i with
  | .cls _ => "CLS"
  | .ret _ => "RET"
  | .jp nnn => "JP " ++ hexText 3 nnn.toNat
  | .call nnn => "CALL " ++ hexText 3 nnn.toNat
  | .seImm x kk => "SE " ++ regText x ++ ", " ++ hexText 2 kk.toNat
  | .sneImm x kk => "SNE " ++ regText x ++ ", " ++ hexText 2 kk.toNat
  | .seReg x y _ => "SE " ++ regText x ++ ", " ++ regText y
  | .ldImm x kk => "LD " ++ regText x ++ ", " ++ hexText 2 kk.toNat
  | .addImm x kk => "ADD " ++ regText x ++ ", " ++ hexText 2 kk.toNat
  | .ldReg x y => "LD " ++ regText x ++ ", " ++ regText y
  | .orReg x y => "OR " ++ regText x ++ ", " ++ regText y
  | .andReg x y => "AND " ++ regText x ++ ", " ++ regText y
  | .xorReg x y => "XOR " ++ regText x ++ ", " ++ regText y
  | .addReg x y => "ADD " ++ regText x ++ ", " ++ regText y
  | .sub x y => "SUB " ++ regText x ++ ", " ++ regText y
  | .shr x _ => "SHR " ++ regText x
  | .subn x y => "SUBN " ++ regText x ++ ", " ++ regText y
  | .shl x _ => "SHL " ++ regText x
  | .sneReg x y _ => "SNE " ++ regText x ++ ", " ++ regText y
  | .ldI nnn => "LD I, " ++ hexText 3 nnn.toNat
  | .jpV0 nnn => "JP V0, " ++ hexText 3 nnn.toNat
  | .rnd x kk => "RND " ++ regText x ++ ", " ++ hexText 2 kk.toNat
  | .drw x y n => "DRW " ++ regText x ++ ", " ++ regText y ++ ", " ++ hexText 1 n.val
  | .skp x _ => "SKP " ++ regText x
  | .sknp x _ => "SKNP " ++ regText x
  | .ldVxDt x => "LD " ++ regText x ++ ", DT"
  | .ldVxK x => "LD " ++ regText x ++ ", K"
  | .ldDtVx x => "LD DT, " ++ regText x
  | .ldStVx x => "LD ST, " ++ regText x
  | .addIVx x => "ADD I, " ++ regText x
  | .ldFVx x => "LD F, " ++ regText x
  | .ldBVx x => "LD B, " ++ regText x
  | .ldMemVx x => "LD [I], " ++ regText x
  | .ldVxMem x => "LD " ++ regText x ++ ", [I]"
  | .nop0 _ | .nop8 _ | .nopE _ | .nopF _ => ".word " ++ hexText 4 (encode i).toNat

end Sys2Proof.Machine
end

