-- ==== Sys2Proof/Machine/Ports.lean ====
section
/-! DEFINITION. The host interface (`60_exceptions.md` R240 to R247; `70_reset_and_hazards.md` R263 to R265):
what the host may do to the machine between cycles, and what it may read. -/

namespace Sys2Proof.Machine

/-- Bytes put verbatim from an address on, with no check (R263). -/
def pokeBytes : Nat → List Byte → State → State
  | _, [], s => s
  | a, b :: rest, s => pokeBytes (a + 1) rest (pokeMem s a b)

/-- Whether a load is still admitted (R264): none yet, and no step yet. A core whose very first step faulted has been
stepped too (log entry 17). -/
def loadAdmitted (s : State) : Bool := !s.loaded && !s.stepped && s.fault.isNone

/-- LoadProgram (R263): rejected whole above 3584 bytes (R265), admitted once before the first step (R264). -/
def loadProgram (bytes : List Byte) (s : State) : Host.Outcome State Fault Refusal :=
  if bytes.length > 3584 then .refused .loadTooLarge
  else if loadAdmitted s then .next { pokeBytes 0x200 bytes s with loaded := true }
  else .refused .loadNotAdmitted

/-- The host sets one key to a level (R241). -/
def setKey (k : Reg) (pressed : Bool) (s : State) : Host.Outcome State Fault Refusal :=
  .next { s with key := s.key.set k.val pressed k.isLt }

/-- What the host may do between cycles (R240, D22). -/
inductive Action where
  /-- Program load (R246). -/
  | load (bytes : List Byte)
  /-- A keypad write (R241). -/
  | key (k : Reg) (pressed : Bool)
  /-- One Step (R245). -/
  | step
  deriving DecidableEq, Repr

/-- The machine's answer to a host action. -/
def act (a : Action) (s : State) : Host.Outcome State Fault Refusal :=
  match a with
  | .load bytes => loadProgram bytes s
  | .key k pressed => setKey k pressed s
  | .step => step s

/-- Output port `fb` (R242): the cells, row-major. -/
def portFb (s : State) (k : Fin 2048) : Bool := readCell s k

/-- Output port `fb_row_len` (R242): the parameter FB_ROW_BYTES. -/
def portFbRowLen : Nat := Config.fbRowBytes

/-- Output port `st` (R244); `DT` is not exposed. -/
def portSt (s : State) : Byte := s.st

/-- Output port `fault` (R243). -/
def portFault (s : State) : Option FaultRecord := s.fault

/-- The fault code's number (R221); 0 is no fault. -/
def faultNumber : Option FaultRecord → Nat
  | none => 0
  | some r => match r.code with
    | .fetchFault => 1
    | .memoryFault => 2
    | .reservedWriteFault => 3
    | .stackOverflow => 4
    | .stackUnderflow => 5
    | .keyIndexFault => 6
    | .framebufferFault => 7

end Sys2Proof.Machine
end

