-- ==== Sys2Proof/Safety.lean ====
section
/-! DEFINITION. What counts as a run and as a safe run (`60_exceptions.md` R247), and the invariant of the machine. -/

namespace Sys2Proof

open Machine

/-- A run: host actions in order (R247), ended by the first the machine has no transition for. -/
def runActions : List Action → State → Host.Outcome State Fault Refusal
  | [], s => .next s
  | a :: rest, s =>
    match act a s with
    | .next t => runActions rest t
    | .fault f => .fault f
    | .refused r => .refused r

/-- A state that ends a run which has not failed: no fault is recorded (R247). -/
def Safe (s : State) : Prop := s.fault = none

/-- A run of host actions ends in a state that has not failed (R247). -/
def SafeRun (actions : List Action) (s : State) : Prop :=
  ∃ t, runActions actions s = .next t ∧ Safe t

/-- What every state of a launched machine satisfies. -/
structure StateInv (s : State) : Prop where
  /-- Memory is in its canonical form. -/
  mem_wf : Memory.wf s.mem
  /-- The reserved region reads as constructed (R52, R54, R274). -/
  reserved : ∀ a, a < 0x200 → s.mem.read a = background a
  /-- `PC` never passes 0x10FE (R25). -/
  pc_le : s.pc.toNat ≤ 0x10FE
  /-- Every active frame's return address is one a CALL pushed: at most 0x1000 (R30, R102). -/
  frames : ∀ k : Fin 16, k.val < s.sp.val → (slotAt s k).toNat ≤ 0x1000
  /-- A recorded fault names the instruction `PC` still points at (R220, R229). -/
  fault_pc : ∀ f, s.fault = some f → f.pc = s.pc
  /-- A record lacks the word exactly for a fetch fault (R37). -/
  fault_opcode : ∀ f, s.fault = some f → (f.opcode = none ↔ f.code = .fetchFault)

end Sys2Proof
end

