-- ==== Sys2Proof/Certificates/Slice0/Obligations.lean ====
section
/-! DEFINITION. The statements for the provers, in the order of `spec/`'s files, after the vocabulary they share. -/

namespace Sys2Proof

open Machine

/-- The pieces of state, for saying what is left unchanged. -/
inductive Part where
  | regs | pc | index | sp | stack | dt | st | keys | cells | latch | memory | fault | loaded | stepped | draws
  deriving DecidableEq, Repr

/-- One piece is the same in two states; registers, slots, keys, cells and memory are compared by what reading them gives. -/
def Unchanged (s t : State) : Part → Prop
  | .regs => ∀ r, readV t r = readV s r
  | .pc => t.pc = s.pc
  | .index => t.i = s.i
  | .sp => t.sp = s.sp
  | .stack => ∀ k, slotAt t k = slotAt s k
  | .dt => t.dt = s.dt
  | .st => t.st = s.st
  | .keys => ∀ k, keyAt t k = keyAt s k
  | .cells => ∀ k, readCell t k = readCell s k
  | .latch => t.opc = s.opc
  | .memory => ∀ a, t.mem.read a = s.mem.read a
  | .fault => t.fault = s.fault
  | .loaded => t.loaded = s.loaded
  | .stepped => t.stepped = s.stepped
  | .draws => t.draws = s.draws

/-- Every piece but the named ones is the same. -/
def UnchangedBut (parts : List Part) (s t : State) : Prop := ∀ p, p ∉ parts → Unchanged s t p

/-- Every general register but the named ones is the same. -/
def RegsBut (rs : List Reg) (s t : State) : Prop := ∀ r, r ∉ rs → readV t r = readV s r

/-- A handler entered in `s` (`PC` advanced, `OPC` latched) raised a fault: the record names the instruction's address
`PC - 2` and its word, and nothing else changed (R220, R229). -/
def Raised (code : Fault) (info : Nat) (s t : State) : Prop :=
  t.fault = some ⟨code, s.pc - 2, some s.opc, info⟩ ∧ UnchangedBut [.fault] s t

/-- The word the next cycle fetches, where two bytes lie in memory (R55, R90). -/
def wordAtPc (s : State) : Word := s.mem.read s.pc.toNat ++ s.mem.read (s.pc.toNat + 1)

/-- The next cycle runs instruction `i`: the core is not halted, and the two bytes at `PC` lie in memory and decode to `i`. -/
def Runs (i : Instr) (s : State) : Prop :=
  s.fault = none ∧ s.pc.toNat + 1 ≤ 0xFFF ∧
    decode [s.mem.read s.pc.toNat, s.mem.read (s.pc.toNat + 1)] = .ok (i, [])

/-- `V[r]` as a number. -/
def vNat (s : State) (r : Reg) : Nat := (readV s r).toNat

/-- A dispatch-miss row. -/
def isMiss : Instr → Bool
  | .nop0 _ | .nop8 _ | .nopE _ | .nopF _ => true
  | _ => false

/-- The words that miss, exactly as R79 lists them. -/
def missWord (w : Nat) : Prop :=
  (w / 4096 = 0x0 ∧ w % 16 ∉ [0x0, 0xE]) ∨
  (w / 4096 = 0x8 ∧ w % 16 ∈ [0x8, 0x9, 0xA, 0xB, 0xC, 0xD, 0xF]) ∨
  (w / 4096 = 0xE ∧ w % 16 ∉ [0x1, 0xE]) ∨
  (w / 4096 = 0xF ∧ w % 256 ∉ [0x07, 0x0A, 0x15, 0x18, 0x1E, 0x29, 0x33, 0x55, 0x65])

/-- Format NNN of R71 as a number. -/
def wordNNN (op : Nat) (nnn : Addr12) : Word := BitVec.ofNat 16 (op * 4096 + nnn.toNat)

/-- Format XKK of R71 as a number. -/
def wordXKK (op : Nat) (x : Reg) (kk : Nat) : Word := BitVec.ofNat 16 (op * 4096 + x.val * 256 + kk)

/-- Format XYN of R71 as a number. -/
def wordXYN (op : Nat) (x y : Reg) (n : Nat) : Word :=
  BitVec.ofNat 16 (op * 4096 + x.val * 256 + y.val * 16 + n)

/-- Format NOX of R71 as a number: primary key 0, eight ignored bits, the sub-key. -/
def wordNOX (ignored : BitVec 8) (n : Nat) : Word := BitVec.ofNat 16 (ignored.toNat * 16 + n)

/-- The parts of the state an instruction that raises nothing may write (R22, R28 to R33, R57, R100 to R205). -/
def partsWritten : Instr → List Part
  | .cls _ => [.cells]
  | .ret _ => [.sp, .pc]
  | .call _ => [.sp, .pc, .stack]
  | .jp _ | .jpV0 _ | .seImm _ _ | .sneImm _ _ | .seReg _ _ _ | .sneReg _ _ _ | .skp _ _ | .sknp _ _ => [.pc]
  | .ldImm _ _ | .addImm _ _ | .ldReg _ _ | .orReg _ _ | .andReg _ _ | .xorReg _ _ | .addReg _ _ | .sub _ _
  | .shr _ _ | .subn _ _ | .shl _ _ | .ldVxDt _ | .ldVxMem _ => [.regs]
  | .rnd _ _ => [.regs, .draws]
  | .drw _ _ _ => [.regs, .cells]
  | .ldVxK _ => [.regs, .pc]
  | .ldI _ | .addIVx _ | .ldFVx _ => [.index]
  | .ldDtVx _ => [.dt]
  | .ldStVx _ => [.st]
  | .ldBVx _ | .ldMemVx _ => [.memory]
  | .nop0 _ | .nop8 _ | .nopE _ | .nopF _ => []

/-- The general registers an instruction may write: the last column of R22. -/
def regsWritten : Instr → List Reg
  | .ldImm x _ | .addImm x _ | .ldReg x _ | .orReg x _ | .andReg x _ | .xorReg x _ | .rnd x _ | .ldVxDt x
  | .ldVxK x => [x]
  | .addReg x _ | .sub x _ | .shr x _ | .subn x _ | .shl x _ => [flagReg, x]
  | .drw _ _ _ => [flagReg]
  | .ldVxMem x => allKeys.filter fun r => r.val ≤ x.val
  | .cls _ | .ret _ | .jp _ | .call _ | .seImm _ _ | .sneImm _ _ | .seReg _ _ _ | .sneReg _ _ _ | .ldI _ | .jpV0 _
  | .skp _ _ | .sknp _ _ | .ldDtVx _ | .ldStVx _ | .addIVx _ | .ldFVx _ | .ldBVx _ | .ldMemVx _
  | .nop0 _ | .nop8 _ | .nopE _ | .nopF _ => []

/-- The faults an instruction's handler may raise (the "raised by" column of R221; R223 to R227). -/
def faultsOf : Instr → List Fault
  | .ret _ => [.stackUnderflow]
  | .call _ => [.stackOverflow]
  | .skp _ _ | .sknp _ _ => [.keyIndexFault]
  | .drw _ _ _ => [.memoryFault, .framebufferFault]
  | .ldBVx _ | .ldMemVx _ => [.memoryFault, .reservedWriteFault]
  | .ldVxMem _ => [.memoryFault]
  | .cls _ | .jp _ | .seImm _ _ | .sneImm _ _ | .seReg _ _ _ | .ldImm _ _ | .addImm _ _ | .ldReg _ _ | .orReg _ _
  | .andReg _ _ | .xorReg _ _ | .addReg _ _ | .sub _ _ | .shr _ _ | .subn _ _ | .shl _ _ | .sneReg _ _ _ | .ldI _
  | .jpV0 _ | .rnd _ _ | .ldVxDt _ | .ldVxK _ | .ldDtVx _ | .ldStVx _ | .addIVx _ | .ldFVx _
  | .nop0 _ | .nop8 _ | .nopE _ | .nopF _ => []

/-- The `PC` a completed cycle leaves, from the state it began in: R24's list. -/
def pcAfter (s : State) : Instr → Nat
  | .jp nnn | .call nnn => nnn.toNat
  | .ret _ => if h : 0 < s.sp.val then (slotAt s ⟨s.sp.val - 1, by omega⟩).toNat else 0
  | .jpV0 nnn => vNat s 0 + nnn.toNat
  | .seImm x kk => if readV s x = kk then s.pc.toNat + 4 else s.pc.toNat + 2
  | .sneImm x kk => if readV s x ≠ kk then s.pc.toNat + 4 else s.pc.toNat + 2
  | .seReg x y _ => if readV s x = readV s y then s.pc.toNat + 4 else s.pc.toNat + 2
  | .sneReg x y _ => if readV s x ≠ readV s y then s.pc.toNat + 4 else s.pc.toNat + 2
  | .skp x _ => if ∃ k, vNat s x = k.val ∧ keyAt s k = true then s.pc.toNat + 4 else s.pc.toNat + 2
  | .sknp x _ => if ∃ k, vNat s x = k.val ∧ keyAt s k = false then s.pc.toNat + 4 else s.pc.toNat + 2
  | .ldVxK _ => if ∀ k, keyAt s k = false then s.pc.toNat else s.pc.toNat + 2
  | .cls _ | .ldImm _ _ | .addImm _ _ | .ldReg _ _ | .orReg _ _ | .andReg _ _ | .xorReg _ _ | .addReg _ _ | .sub _ _
  | .shr _ _ | .subn _ _ | .shl _ _ | .ldI _ | .rnd _ _ | .drw _ _ _ | .ldVxDt _ | .ldDtVx _ | .ldStVx _ | .addIVx _
  | .ldFVx _ | .ldBVx _ | .ldMemVx _ | .ldVxMem _ | .nop0 _ | .nop8 _ | .nopE _ | .nopF _ => s.pc.toNat + 2

/-- Two states that differ at most in what no program can see: the old opcode latch and the stack slots at or above `SP`
(R30, R34). -/
def SameButDead (s t : State) : Prop :=
  t = { s with opc := t.opc, stack := t.stack } ∧ ∀ k : Fin 16, k.val < s.sp.val → slotAt t k = slotAt s k

/-- The sprite bit of a row and column of a draw (R181): bit 7 of the byte at `I + row` is column 0. -/
def spriteBitAt (s : State) (row col : Nat) : Bool := (s.mem.read (effAddr s row)).getLsbD (7 - col)

/-- The linear cell of a sprite pixel (R182). -/
def cellOf (s : State) (x y : Reg) (row col : Nat) : Nat :=
  (vNat s y % 32 + row) * 64 + (vNat s x % 64 + col)

/-- A set bit of an `n`-row sprite lands on a cell. -/
def DrawHits (s : State) (x y n : Reg) (k : Fin 2048) : Prop :=
  ∃ row col, row < n.val ∧ col < 8 ∧ spriteBitAt s row col = true ∧ cellOf s x y row col = k.val

/-- No fault in a sprite row: its byte lies in memory and its set bits land inside the array. -/
def RowDrawable (s : State) (x y : Reg) (row : Nat) : Prop :=
  effAddr s row ≤ 0xFFF ∧ ∀ col, col < 8 → spriteBitAt s row col = true → cellOf s x y row col < 2048

/-- An address a program may store to (R54). -/
def Storable (a : Nat) : Prop := 0x200 ≤ a ∧ a ≤ 0xFFF

/-- The fault of a store to an address a program may not store to (R54, R228). -/
def storeFault (a : Nat) : Fault := if a > 0xFFF then .memoryFault else .reservedWriteFault

end Sys2Proof

open Sys2Proof Sys2Proof.Machine

/-! ### `10_state.md`, `70_reset_and_hazards.md`: construction -/

/-- R260: the state after construction, for every launch draw. -/
def Obligations.ConstructionLeavesSpecifiedValues : Prop :=
  ∀ d : Launch,
    (∀ i : Fin 80, (State.construct d).mem.read (Config.glyphBase + i.val) = Config.glyphTable i) ∧
    (∀ a, ¬(Config.glyphBase ≤ a ∧ a < Config.glyphBase + 80) → (State.construct d).mem.read a = 0) ∧
    Config.glyphBase + 80 ≤ 0x200 ∧
    (State.construct d).pc = 0x200 ∧ (State.construct d).sp.val = 0 ∧ (State.construct d).fault = none ∧
    (∀ r, readV (State.construct d) r = d.v[r]) ∧ (State.construct d).i = d.i ∧
    (State.construct d).dt = d.dt ∧ (State.construct d).st = d.st ∧
    (∀ k, readCell (State.construct d) k = d.fb[k]) ∧ (∀ k, slotAt (State.construct d) k = d.stack[k]) ∧
    (State.construct d).opc = d.opc ∧ (∀ k, keyAt (State.construct d) k = d.key[k])

/-- The invariant holds after construction, for every launch draw, and so at reset. -/
def Obligations.ConstructionMeetsInvariant : Prop :=
  (∀ d : Launch, StateInv (State.construct d)) ∧ StateInv State.reset

/-- Every Step keeps the invariant: canonical memory, the reserved region as constructed, `PC` at most 0x10FE, active return
addresses at most 0x1000, a fault record that names the instruction `PC` points at. -/
def Obligations.StepKeepsInvariant : Prop :=
  ∀ s t, StateInv s → step s = .next t → StateInv t

/-- Every host action keeps the invariant, and so every run of host actions does. -/
def Obligations.HostActionsKeepInvariant : Prop :=
  ∀ (actions : List Action) (s t : State), StateInv s → runActions actions s = .next t → StateInv t

/-- R30, R34, R38: the opcode latch and the stack slots at or above `SP` influence nothing a Step does.
The two states have equal `draws`, and equal `draws` give equal random bytes (log entry 7, the model's choice): RND's two next
states agree only under that same draw. -/
def Obligations.DeadSlotsAndLatchAreUnobservable : Prop :=
  ∀ s t, SameButDead s t → ∃ s' t', step s = .next s' ∧ step t = .next t' ∧ SameButDead s' t' ∧
    (s'.fault = none → t'.opc = s'.opc)

/-- R21, R22, R28, R29, R31, R32, R33, R57 over all instructions: what each may write when it raises nothing; when it raises, only
the fault record. -/
def Obligations.InstructionsWriteOnlyTheirParts : Prop :=
  ∀ i s t, exec i s = .next t →
    (UnchangedBut (partsWritten i) s t ∧ RegsBut (regsWritten i) s t) ∨
      (∃ code info, code ∈ faultsOf i ∧ Raised code info s t)

/-- R24: the net effect of every instruction on `PC` in a cycle that completes. -/
def Obligations.PcAfterCompletedCycle : Prop :=
  ∀ i s t, Runs i s → step s = .next t → t.fault = none → t.pc.toNat = pcAfter s i

/-! ### `20_memory.md` -/

/-- R53 and R54: the access primitives. -/
def Obligations.MemoryPrimitivesCheckBounds : Prop :=
  ∀ (s : State) (a : Nat) (b : Byte),
    (a > 0xFFF → memRead s a = .error (.memoryFault, a) ∧ memWrite s a b = .error (.memoryFault, a)) ∧
    (a ≤ 0xFFF → memRead s a = .ok (s.mem.read a)) ∧
    (a < 0x200 → memWrite s a b = .error (.reservedWriteFault, a)) ∧
    (0x200 ≤ a → a ≤ 0xFFF → ∃ t, memWrite s a b = .ok t ∧ t.mem.read a = b ∧
      (∀ c, c ≠ a → t.mem.read c = s.mem.read c) ∧ UnchangedBut [.memory] s t)

/-- Canonical memories that read alike at every address are the same list, so equal memories are equal data. -/
def Obligations.CanonicalMemoryIsDeterminedByItsBytes : Prop :=
  ∀ m n : Memory, m.wf → n.wf → (∀ a, m.read a = n.read a) → m = n

/-- R62, R274: bytes a dump stored are fetched as written by a later cycle. -/
def Obligations.StoredBytesAreFetched : Prop :=
  ∀ (x : Reg) (s t u : State) (j : Nat) (r q : Reg),
    exec (.ldMemVx x) s = .next t → t.fault = none →
    u.mem = t.mem → u.pc.toNat = effAddr s j → r.val = j → q.val = j + 1 → q.val ≤ x.val →
    fetchWord u = .ok (readV s r ++ readV s q)

/-- R274: no run of Steps changes a byte below 0x200, from any state. -/
def Obligations.ReservedRegionNeverChanges : Prop :=
  ∀ (n : Nat) (s t : State), core.run n s = .next t → ∀ a, a < 0x200 → t.mem.read a = s.mem.read a

/-! ### `30_encoding.md`: encoding and dispatch -/

/-- Decoding the two bytes of any well-formed instruction gives it back, with every operand at every value, and leaves the bytes
that follow; the numeric keys are D25's (log entry 14). -/
def Obligations.DecodeInvertsEncode : Prop :=
  ∀ (i : Instr) (rest : List Byte), i.wf = true → decode (encodeBytes i ++ rest) = .ok (i, rest)

/-- Every 16-bit word is the word of exactly one well-formed term, the one it decodes to. That every word decodes is R82; that the
term is unique is the model's choice of terms (log entry 15), over the numeric keys of D25 (log entry 14). -/
def Obligations.EveryWordIsOneInstruction : Prop :=
  ∀ w : Word, (decodeWord w).wf = true ∧ ∀ i : Instr, i.wf = true → (encode i = w ↔ i = decodeWord w)

/-- R79: the words that miss are exactly the listed ones, and a miss reads and writes no state; the keys are D25's
(log entry 14). -/
def Obligations.DispatchMissExactlyListedWords : Prop :=
  ∀ w : Word, (isMiss (decodeWord w) = true ↔ missWord w.toNat) ∧
    (missWord w.toNat → ∀ s, exec (decodeWord w) s = .next s)

/-- R72, R74 to R78: which instruction each word selects, with which operands, the ignored bits at every value; a word that
misses selects a dispatch-miss row. The numeric keys are D25's (log entry 14). -/
def Obligations.OpcodeMapSelectsInstructions : Prop :=
  (∀ nnn : Addr12,
    decodeWord (wordNNN 0x1 nnn) = .jp nnn ∧ decodeWord (wordNNN 0x2 nnn) = .call nnn ∧
    decodeWord (wordNNN 0xA nnn) = .ldI nnn ∧ decodeWord (wordNNN 0xB nnn) = .jpV0 nnn) ∧
  (∀ (x : Reg) (kk : Byte),
    decodeWord (wordXKK 0x3 x kk.toNat) = .seImm x kk ∧ decodeWord (wordXKK 0x4 x kk.toNat) = .sneImm x kk ∧
    decodeWord (wordXKK 0x6 x kk.toNat) = .ldImm x kk ∧ decodeWord (wordXKK 0x7 x kk.toNat) = .addImm x kk ∧
    decodeWord (wordXKK 0xC x kk.toNat) = .rnd x kk) ∧
  (∀ x y n : Reg,
    decodeWord (wordXYN 0x5 x y n.val) = .seReg x y (nibble n) ∧
    decodeWord (wordXYN 0x9 x y n.val) = .sneReg x y (nibble n) ∧ decodeWord (wordXYN 0xD x y n.val) = .drw x y n) ∧
  (∀ g : BitVec 8, decodeWord (wordNOX g 0x0) = .cls g ∧ decodeWord (wordNOX g 0xE) = .ret g) ∧
  (∀ x y : Reg,
    decodeWord (wordXYN 0x8 x y 0x0) = .ldReg x y ∧ decodeWord (wordXYN 0x8 x y 0x1) = .orReg x y ∧
    decodeWord (wordXYN 0x8 x y 0x2) = .andReg x y ∧ decodeWord (wordXYN 0x8 x y 0x3) = .xorReg x y ∧
    decodeWord (wordXYN 0x8 x y 0x4) = .addReg x y ∧ decodeWord (wordXYN 0x8 x y 0x5) = .sub x y ∧
    decodeWord (wordXYN 0x8 x y 0x6) = .shr x (nibble y) ∧ decodeWord (wordXYN 0x8 x y 0x7) = .subn x y ∧
    decodeWord (wordXYN 0x8 x y 0xE) = .shl x (nibble y) ∧
    decodeWord (wordXYN 0xE x y 0xE) = .skp x (nibble y) ∧ decodeWord (wordXYN 0xE x y 0x1) = .sknp x (nibble y)) ∧
  (∀ x : Reg,
    decodeWord (wordXKK 0xF x 0x07) = .ldVxDt x ∧ decodeWord (wordXKK 0xF x 0x0A) = .ldVxK x ∧
    decodeWord (wordXKK 0xF x 0x15) = .ldDtVx x ∧ decodeWord (wordXKK 0xF x 0x18) = .ldStVx x ∧
    decodeWord (wordXKK 0xF x 0x1E) = .addIVx x ∧ decodeWord (wordXKK 0xF x 0x29) = .ldFVx x ∧
    decodeWord (wordXKK 0xF x 0x33) = .ldBVx x ∧ decodeWord (wordXKK 0xF x 0x55) = .ldMemVx x ∧
    decodeWord (wordXKK 0xF x 0x65) = .ldVxMem x) ∧
  ∀ w : Word, missWord w.toNat → isMiss (decodeWord w) = true

/-- Words written out from the opcode map decode to what they stand for; the numeric keys are D25's, presumed (log entry 14). -/
def Obligations.SpecWordsDecode : Prop :=
  decode [0x00, 0xEE] = .ok (.ret 0x0E, []) ∧ decode [0x22, 0x10] = .ok (.call 0x210, []) ∧
  decode [0x33, 0x05] = .ok (.seImm 3 0x05, []) ∧ decode [0x51, 0x21] = .ok (.seReg 1 2 1, []) ∧
  decode [0x81, 0x24] = .ok (.addReg 1 2, []) ∧ decode [0x81, 0x7E] = .ok (.shl 1 7, []) ∧
  decode [0x81, 0x28] = .ok (.nop8 0x128, []) ∧ decode [0xA3, 0x00] = .ok (.ldI 0x300, []) ∧
  decode [0xD0, 0x1F] = .ok (.drw 0 1 15, []) ∧ decode [0xE5, 0x9E] = .ok (.skp 5 9, []) ∧
  decode [0xF2, 0x65] = .ok (.ldVxMem 2, []) ∧ decode [0xF1, 0x66] = .ok (.nopF 0x166, [])

/-- R75, R77, R82, R106, R107, R138, R140: words that differ only in bits their handler ignores run alike. Which family
nibbles and keys these are is D25's, presumed (log entry 14). -/
def Obligations.IgnoredBitsHaveNoEffect : Prop :=
  ∀ (w w' : Word) (s : State),
    ((w.toNat / 4096 = 0x0 ∧ w'.toNat / 4096 = 0x0 ∧ w.toNat % 16 ∈ [0x0, 0xE] ∧ w.toNat % 16 = w'.toNat % 16) ∨
     (w.toNat / 4096 = 0xE ∧ w.toNat / 256 = w'.toNat / 256 ∧ w.toNat % 16 ∈ [0x1, 0xE] ∧
       w.toNat % 16 = w'.toNat % 16) ∨
     (w.toNat / 4096 = 0x8 ∧ w.toNat / 256 = w'.toNat / 256 ∧ w.toNat % 16 ∈ [0x6, 0xE] ∧
       w.toNat % 16 = w'.toNat % 16) ∨
     (w.toNat / 4096 ∈ [0x5, 0x9] ∧ w.toNat / 16 = w'.toNat / 16)) →
    exec (decodeWord w) s = exec (decodeWord w') s

/-- R83: the word an assembler emits decodes to an instruction that runs as the one it was given. The canonical form is R83's and the
model's (log entries 23, 24), the numeric keys are D25's (log entry 14). -/
def Obligations.AssembledWordRunsAlike : Prop :=
  ∀ (i : Instr) (s : State), i.wf = true →
    decodeWord (assemble i) = canonical i ∧ exec (decodeWord (assemble i)) s = exec i s

/-- R80: a cycle that executes NOP advances, latches and ticks, and changes nothing else (`stepped` is the host protocol's
bit, not part of it). -/
def Obligations.NopCycleOnlyAdvancesAndTicks : Prop :=
  (∀ (g : Addr12) (s : State), exec (.nop0 g) s = .next s ∧ exec (.nop8 g) s = .next s ∧
    exec (.nopE g) s = .next s ∧ exec (.nopF g) s = .next s) ∧
  ∀ (i : Instr) (s : State), isMiss i = true → Runs i s → ∃ t, step s = .next t ∧
    t.pc.toNat = s.pc.toNat + 2 ∧ t.opc = wordAtPc s ∧ t.dt.toNat = s.dt.toNat - 1 ∧ t.st.toNat = s.st.toNat - 1 ∧
    UnchangedBut [.pc, .latch, .dt, .st, .stepped] s t

/-! ### `30_encoding.md`, `60_exceptions.md`: the cycle and faults -/

/-- R90: one Step is fetch, advance, dispatch of the decoded instruction and tick; a raise abandons it (R92). -/
def Obligations.StepRunsTheDecodedInstruction : Prop :=
  (∀ s, s.fault ≠ none → step s = .next s) ∧
  (∀ s, s.fault = none → s.pc.toNat + 1 > 0xFFF →
    step s = .next { s with fault := some ⟨.fetchFault, s.pc, none, s.pc.toNat⟩ }) ∧
  ∀ i s, Runs i s → ∃ t,
    exec i { s with opc := wordAtPc s, pc := BitVec.ofNat 16 (s.pc.toNat + 2) } = .next t ∧
    (t.fault = none → step s = .next
      { t with
        dt := BitVec.ofNat 8 (t.dt.toNat - 1)
        st := BitVec.ofNat 8 (t.st.toNat - 1)
        stepped := true }) ∧
    (t.fault ≠ none → step s = .next { s with fault := t.fault })

/-- The machine never stops without a next state: no encoding traps (R82), and a fault is a next state. -/
def Obligations.EveryStepAnswersNext : Prop :=
  ∀ (n : Nat) (s : State), ∃ t, core.run n s = .next t

/-- R220: a cycle that raises a fault changes nothing but the record, which names the address and the word, and the core is then
halted. -/
def Obligations.FaultingCycleChangesOnlyTheRecord : Prop :=
  ∀ s t f, s.fault = none → step s = .next t → t.fault = some f →
    t = { s with fault := some f } ∧ f.pc = s.pc ∧
    f.opcode = (if f.code = .fetchFault then none else some (wordAtPc s)) ∧
    portFault t = some f ∧ ∀ n, core.run n t = .next t

/-- R236: while a fault is recorded, Steps change no state. -/
def Obligations.HaltedCoreNeverChanges : Prop :=
  ∀ (n : Nat) (s : State), s.fault ≠ none → core.run n s = .next s

/-- R222: a fetch fault is raised exactly when `PC` is 0xFFF or more, with `PC` as its info. -/
def Obligations.FetchFaultExactlyPastMemory : Prop :=
  ∀ s t, s.fault = none → step s = .next t →
    ((∃ f, t.fault = some f ∧ f.code = .fetchFault) ↔ 0xFFF ≤ s.pc.toNat) ∧
    (0xFFF ≤ s.pc.toNat → t.fault = some ⟨.fetchFault, s.pc, none, s.pc.toNat⟩)

/-- R223: memory faults come only from DRW, LD B, dump and load, and reserved-write faults only from LD B and dump. -/
def Obligations.MemoryFaultsOnlyFromDataAccesses : Prop :=
  ∀ i s t f, Runs i s → step s = .next t → t.fault = some f →
    (f.code = .memoryFault → (∃ x y n, i = .drw x y n) ∨ (∃ x, i = .ldBVx x) ∨ (∃ x, i = .ldMemVx x) ∨
      ∃ x, i = .ldVxMem x) ∧
    (f.code = .reservedWriteFault → (∃ x, i = .ldBVx x) ∨ ∃ x, i = .ldMemVx x)

/-- R224, R225, R226: stack and key faults are raised exactly where the rules say. -/
def Obligations.StackAndKeyFaultsExactly : Prop :=
  ∀ i s t, Runs i s → step s = .next t →
    ((∃ f, t.fault = some f ∧ f.code = .stackOverflow) ↔ (∃ nnn, i = .call nnn) ∧ s.sp.val = 16) ∧
    ((∃ f, t.fault = some f ∧ f.code = .stackUnderflow) ↔ (∃ g, i = .ret g) ∧ s.sp.val = 0) ∧
    ((∃ f, t.fault = some f ∧ f.code = .keyIndexFault) ↔
      ∃ x g, (i = .skp x g ∨ i = .sknp x g) ∧ vNat s x > 15)

/-- R230: at the end of every completed cycle each timer is one less, never below zero, whatever instruction ran; a timer the
instruction wrote is ticked from the value written. -/
def Obligations.TimersTickEveryCompletedCycle : Prop :=
  ∀ i s t, Runs i s → step s = .next t → t.fault = none →
    ((∀ x, i ≠ .ldDtVx x) → t.dt.toNat = s.dt.toNat - 1) ∧
    (∀ x, i = .ldDtVx x → t.dt.toNat = vNat s x - 1) ∧
    ((∀ x, i ≠ .ldStVx x) → t.st.toNat = s.st.toNat - 1) ∧
    (∀ x, i = .ldStVx x → t.st.toNat = vNat s x - 1)

/-- R272: over a run of completed cycles that never runs LD DT, the delay timer falls by one a cycle and stops at zero. -/
def Obligations.DelayTimerCountsCycles : Prop :=
  ∀ (n : Nat) (s t : State), core.run n s = .next t → t.fault = none →
    (∀ k u x, k < n → core.run k s = .next u → ¬Runs (.ldDtVx x) u) →
    t.dt.toNat = s.dt.toNat - n

/-- R266: without a load, every launched machine runs CLS from 0x200 to the end of memory and then raises a fetch fault.
That zeroed memory is CLS is D25's (log entry 14). -/
def Obligations.UnloadedMachineRunsOffTheEnd : Prop :=
  ∀ d : Launch, ∃ t, core.run 1792 (State.construct d) = .next t ∧ t.fault = none ∧ t.pc = 0x1000 ∧
    (∀ k, readCell t k = false) ∧
    step t = .next { t with fault := some ⟨.fetchFault, 0x1000, none, 0x1000⟩ }

/-! ### `41_control.md` -/

/-- R100, R225: RET. -/
def Obligations.ReturnPopsTheStack : Prop :=
  ∀ (g : BitVec 8) (s : State),
    (∀ k : Fin 16, s.sp.val = k.val + 1 → ∃ t, exec (.ret g) s = .next t ∧
      t.sp.val = k.val ∧ t.pc = slotAt s k ∧ UnchangedBut [.sp, .pc] s t) ∧
    (s.sp.val = 0 → ∃ t, exec (.ret g) s = .next t ∧ Raised .stackUnderflow 0 s t)

/-- R101, R108: JP, and JP V0 with its exact, never reduced sum. -/
def Obligations.JumpsSetPc : Prop :=
  ∀ (nnn : Addr12) (s : State),
    (∃ t, exec (.jp nnn) s = .next t ∧ t.pc.toNat = nnn.toNat ∧ UnchangedBut [.pc] s t) ∧
    (∃ t, exec (.jpV0 nnn) s = .next t ∧ t.pc.toNat = vNat s 0 + nnn.toNat ∧ UnchangedBut [.pc] s t)

/-- R102, R224: CALL. -/
def Obligations.CallPushesReturnAddress : Prop :=
  ∀ (nnn : Addr12) (s : State),
    (∀ k : Fin 16, s.sp.val = k.val → ∃ t, exec (.call nnn) s = .next t ∧
      slotAt t k = s.pc ∧ (∀ j, j ≠ k → slotAt t j = slotAt s j) ∧ t.sp.val = k.val + 1 ∧
      t.pc.toNat = nnn.toNat ∧ UnchangedBut [.stack, .sp, .pc] s t) ∧
    (s.sp.val = 16 → ∃ t, exec (.call nnn) s = .next t ∧ Raised .stackOverflow 16 s t)

/-- R100, R102: a RET that finds the stack as the matching CALL left it resumes after the CALL. -/
def Obligations.ReturnUndoesCall : Prop :=
  ∀ (nnn : Addr12) (g : BitVec 8) (s t u : State), exec (.call nnn) s = .next t → t.fault = none →
    u.sp = t.sp → u.stack = t.stack →
    ∃ v, exec (.ret g) u = .next v ∧ v.pc = s.pc ∧ v.sp = s.sp ∧ UnchangedBut [.sp, .pc] u v

/-- R103 to R107: the skips on registers and immediates add 2 to the advanced `PC` when their condition holds. -/
def Obligations.SkipsAddTwoWhenConditionHolds : Prop :=
  ∀ (x y : Reg) (kk : Byte) (g : Nibble) (s : State),
    (∃ t, exec (.seImm x kk) s = .next t ∧
      (vNat s x = kk.toNat → t.pc = s.pc + 2) ∧ (vNat s x ≠ kk.toNat → t.pc = s.pc) ∧ UnchangedBut [.pc] s t) ∧
    (∃ t, exec (.sneImm x kk) s = .next t ∧
      (vNat s x ≠ kk.toNat → t.pc = s.pc + 2) ∧ (vNat s x = kk.toNat → t.pc = s.pc) ∧ UnchangedBut [.pc] s t) ∧
    (∃ t, exec (.seReg x y g) s = .next t ∧
      (vNat s x = vNat s y → t.pc = s.pc + 2) ∧ (vNat s x ≠ vNat s y → t.pc = s.pc) ∧ UnchangedBut [.pc] s t) ∧
    (∃ t, exec (.sneReg x y g) s = .next t ∧
      (vNat s x ≠ vNat s y → t.pc = s.pc + 2) ∧ (vNat s x = vNat s y → t.pc = s.pc) ∧ UnchangedBut [.pc] s t)

/-! ### `42_alu.md` -/

/-- R130: LD Vx, KK. -/
def Obligations.LoadImmediateSetsRegister : Prop :=
  ∀ (x : Reg) (kk : Byte) (s : State), ∃ t, exec (.ldImm x kk) s = .next t ∧
    readV t x = kk ∧ RegsBut [x] s t ∧ UnchangedBut [.regs] s t

/-- R131: ADD Vx, KK wraps and has no flag effect. -/
def Obligations.AddImmediateWrapsWithoutFlag : Prop :=
  ∀ (x : Reg) (kk : Byte) (s : State), ∃ t, exec (.addImm x kk) s = .next t ∧
    vNat t x = (vNat s x + kk.toNat) % 256 ∧ RegsBut [x] s t ∧ UnchangedBut [.regs] s t

/-- R132 to R135: copy and logic, bit by bit, with no flag effect. -/
def Obligations.CopyAndLogicWithoutFlag : Prop :=
  ∀ (x y : Reg) (s : State),
    (∃ t, exec (.ldReg x y) s = .next t ∧ readV t x = readV s y ∧ RegsBut [x] s t ∧ UnchangedBut [.regs] s t) ∧
    (∃ t, exec (.orReg x y) s = .next t ∧
      (∀ b, (readV t x).getLsbD b = ((readV s x).getLsbD b || (readV s y).getLsbD b)) ∧
      RegsBut [x] s t ∧ UnchangedBut [.regs] s t) ∧
    (∃ t, exec (.andReg x y) s = .next t ∧
      (∀ b, (readV t x).getLsbD b = ((readV s x).getLsbD b && (readV s y).getLsbD b)) ∧
      RegsBut [x] s t ∧ UnchangedBut [.regs] s t) ∧
    (∃ t, exec (.xorReg x y) s = .next t ∧
      (∀ b, (readV t x).getLsbD b = ((readV s x).getLsbD b ^^ (readV s y).getLsbD b)) ∧
      RegsBut [x] s t ∧ UnchangedBut [.regs] s t)

/-- R136: ADD Vx, Vy, with VF as an operand or as the destination too. -/
def Obligations.AddSetsCarry : Prop :=
  ∀ (x y : Reg) (s : State), ∃ t, exec (.addReg x y) s = .next t ∧
    vNat t x = (vNat s x + vNat s y) % 256 ∧
    (x ≠ flagReg → vNat t flagReg = if vNat s x + vNat s y > 255 then 1 else 0) ∧
    RegsBut [flagReg, x] s t ∧ UnchangedBut [.regs] s t

/-- R137: SUB Vx, Vy; the flag is written first, and the difference reads it where X or Y is 0xF. -/
def Obligations.SubtractSetsStrictFlag : Prop :=
  ∀ (x y : Reg) (s : State), ∃ t, exec (.sub x y) s = .next t ∧
    (let f := if vNat s x > vNat s y then 1 else 0
     (x ≠ flagReg → vNat t flagReg = f) ∧
     (x ≠ flagReg → y ≠ flagReg → vNat t x = (vNat s x + 256 - vNat s y) % 256) ∧
     (x ≠ flagReg → y = flagReg → vNat t x = (vNat s x + 256 - f) % 256) ∧
     (x = flagReg → y ≠ flagReg → vNat t x = (f + 256 - vNat s y) % 256) ∧
     (x = y → vNat t x = 0)) ∧
    RegsBut [flagReg, x] s t ∧ UnchangedBut [.regs] s t

/-- R139: SUBN Vx, Vy. -/
def Obligations.SubtractReverseSetsStrictFlag : Prop :=
  ∀ (x y : Reg) (s : State), ∃ t, exec (.subn x y) s = .next t ∧
    (let f := if vNat s y > vNat s x then 1 else 0
     (x ≠ flagReg → vNat t flagReg = f) ∧
     (x ≠ flagReg → y ≠ flagReg → vNat t x = (vNat s y + 256 - vNat s x) % 256) ∧
     (x ≠ flagReg → y = flagReg → vNat t x = (f + 256 - vNat s x) % 256) ∧
     (x = flagReg → y ≠ flagReg → vNat t x = (vNat s y + 256 - f) % 256) ∧
     (x = y → vNat t x = 0)) ∧
    RegsBut [flagReg, x] s t ∧ UnchangedBut [.regs] s t

/-- R138: SHR Vx halves the register and VF takes the bit shifted out; VF shifted itself ends 0. -/
def Obligations.ShiftRightHalves : Prop :=
  ∀ (x : Reg) (g : Nibble) (s : State), ∃ t, exec (.shr x g) s = .next t ∧
    (x ≠ flagReg → vNat t x = vNat s x / 2 ∧ vNat t flagReg = vNat s x % 2) ∧
    (x = flagReg → vNat t x = 0) ∧ RegsBut [flagReg, x] s t ∧ UnchangedBut [.regs] s t

/-- R140: SHL Vx doubles the register and VF takes the bit shifted out; VF shifted itself ends twice its bit 7. -/
def Obligations.ShiftLeftDoubles : Prop :=
  ∀ (x : Reg) (g : Nibble) (s : State), ∃ t, exec (.shl x g) s = .next t ∧
    (x ≠ flagReg → vNat t x = vNat s x * 2 % 256 ∧ vNat t flagReg = vNat s x / 128) ∧
    (x = flagReg → vNat t x = 2 * (vNat s x / 128)) ∧ RegsBut [flagReg, x] s t ∧ UnchangedBut [.regs] s t

/-- R141: RND Vx, KK takes one fresh draw and masks it; true for every value of the draw. -/
def Obligations.RandomByteIsMasked : Prop :=
  ∀ (x : Reg) (kk : Byte) (s : State), ∃ t, exec (.rnd x kk) s = .next t ∧
    (∀ b, (readV t x).getLsbD b = ((Config.draw8 s.draws).getLsbD b && kk.getLsbD b)) ∧
    (kk = 0 → vNat t x = 0) ∧ t.draws = s.draws + 1 ∧ RegsBut [x] s t ∧ UnchangedBut [.regs, .draws] s t

/-! ### `43_index_memory.md` -/

/-- R160, R161: LD I, NNN; ADD I, Vx, which wraps at 65536 and writes no flag. -/
def Obligations.IndexLoadAndAdd : Prop :=
  (∀ (nnn : Addr12) (s : State), ∃ t, exec (.ldI nnn) s = .next t ∧
    t.i.toNat = nnn.toNat ∧ UnchangedBut [.index] s t) ∧
  ∀ (x : Reg) (s : State), ∃ t, exec (.addIVx x) s = .next t ∧
    t.i.toNat = (s.i.toNat + vNat s x) % 65536 ∧ UnchangedBut [.index] s t

/-- R162: LD F, Vx applies its formula to every value, and never passes 0xFFF. -/
def Obligations.GlyphIndexIsBasePlusFive : Prop :=
  ∀ (x : Reg) (s : State), ∃ t, exec (.ldFVx x) s = .next t ∧
    t.i.toNat = (Config.glyphBase + 5 * vNat s x) % 65536 ∧ t.i.toNat = Config.glyphBase + 5 * vNat s x ∧
    t.i.toNat < 0x1000 ∧ UnchangedBut [.index] s t

/-- R163: LD B, Vx stores the three digits, or raises at the first address that may not be stored to. -/
def Obligations.BcdStoresThreeDigits : Prop :=
  ∀ (x : Reg) (s : State),
    ((∀ k, k < 3 → Storable (effAddr s k)) → ∃ t, exec (.ldBVx x) s = .next t ∧
      (t.mem.read (effAddr s 0)).toNat = vNat s x / 100 ∧
      (t.mem.read (effAddr s 1)).toNat = vNat s x / 10 % 10 ∧
      (t.mem.read (effAddr s 2)).toNat = vNat s x % 10 ∧
      (∀ a, (∀ k, k < 3 → a ≠ effAddr s k) → t.mem.read a = s.mem.read a) ∧ UnchangedBut [.memory] s t) ∧
    (∀ k, k < 3 → (∀ j, j < k → Storable (effAddr s j)) → ¬Storable (effAddr s k) →
      ∃ t, exec (.ldBVx x) s = .next t ∧ Raised (storeFault (effAddr s k)) (effAddr s k) s t)

/-- R164: LD [I], Vx stores V0 .. V[X], or raises at the first address that may not be stored to; `I` stays. -/
def Obligations.DumpStoresRegisters : Prop :=
  ∀ (x : Reg) (s : State),
    ((∀ r : Reg, r ≤ x → Storable (effAddr s r.val)) → ∃ t, exec (.ldMemVx x) s = .next t ∧
      (∀ r : Reg, r ≤ x → t.mem.read (effAddr s r.val) = readV s r) ∧
      (∀ a, (∀ r : Reg, r ≤ x → a ≠ effAddr s r.val) → t.mem.read a = s.mem.read a) ∧
      UnchangedBut [.memory] s t) ∧
    (∀ r : Reg, r ≤ x → (∀ q : Reg, q < r → Storable (effAddr s q.val)) → ¬Storable (effAddr s r.val) →
      ∃ t, exec (.ldMemVx x) s = .next t ∧ Raised (storeFault (effAddr s r.val)) (effAddr s r.val) s t)

/-- R165: LD Vx, [I] loads V0 .. V[X], or raises at the first address above 0xFFF; `I` stays. -/
def Obligations.LoadFillsRegisters : Prop :=
  ∀ (x : Reg) (s : State),
    ((∀ r : Reg, r ≤ x → effAddr s r.val ≤ 0xFFF) → ∃ t, exec (.ldVxMem x) s = .next t ∧
      (∀ r : Reg, r ≤ x → readV t r = s.mem.read (effAddr s r.val)) ∧
      (∀ r : Reg, x < r → readV t r = readV s r) ∧ UnchangedBut [.regs] s t) ∧
    (∀ r : Reg, r ≤ x → (∀ q : Reg, q < r → effAddr s q.val ≤ 0xFFF) → effAddr s r.val > 0xFFF →
      ∃ t, exec (.ldVxMem x) s = .next t ∧ Raised .memoryFault (effAddr s r.val) s t)

/-- R165's round trip: a dump and then a load with the same `I` and X restore V0 .. V[X], whatever they held in between. -/
def Obligations.DumpThenLoadRestores : Prop :=
  ∀ (x : Reg) (s t u : State), exec (.ldMemVx x) s = .next t → t.fault = none →
    u.i = s.i → u.mem = t.mem → ∃ w, exec (.ldVxMem x) u = .next w ∧
      (∀ r : Reg, r ≤ x → readV w r = readV s r) ∧ w.fault = u.fault

/-! ### `44_display.md` -/

/-- R180: CLS. -/
def Obligations.ClearScreenClearsEveryCell : Prop :=
  ∀ (g : BitVec 8) (s : State), ∃ t, exec (.cls g) s = .next t ∧
    (∀ k, readCell t k = false) ∧ UnchangedBut [.cells] s t

/-- R181, R182, R183: a draw none of whose rows faults toggles exactly the cells its set bits land on, and VF is 1 exactly when it
turned a cell off. -/
def Obligations.DrawTogglesCellsAndFlagsCollision : Prop :=
  ∀ (x y n : Reg) (s : State), (∀ row, row < n.val → RowDrawable s x y row) →
    ∃ t, exec (.drw x y n) s = .next t ∧
      (∀ k, DrawHits s x y n k → readCell t k = !readCell s k) ∧
      (∀ k, ¬DrawHits s x y n k → readCell t k = readCell s k) ∧
      ((∃ k, readCell s k = true ∧ readCell t k = false) → vNat t flagReg = 1) ∧
      ((¬∃ k, readCell s k = true ∧ readCell t k = false) → vNat t flagReg = 0) ∧
      RegsBut [flagReg] s t ∧ UnchangedBut [.regs, .cells] s t

/-- R181, R227, R228: a draw faults at its first bad row, at the row's address or at the row's first set bit outside the array. -/
def Obligations.DrawFaultsAtFirstBadPixel : Prop :=
  ∀ (x y n : Reg) (s : State) (row : Nat), row < n.val → (∀ r, r < row → RowDrawable s x y r) →
    (effAddr s row > 0xFFF → ∃ t, exec (.drw x y n) s = .next t ∧ Raised .memoryFault (effAddr s row) s t) ∧
    (∀ col, effAddr s row ≤ 0xFFF → col < 8 → spriteBitAt s row col = true → cellOf s x y row col ≥ 2048 →
      (∀ c, c < col → spriteBitAt s row c = true → cellOf s x y row c < 2048) →
      ∃ t, exec (.drw x y n) s = .next t ∧ Raised .framebufferFault (cellOf s x y row col) s t)

/-- R184: two draws in succession with the same operands restore every cell, and the second sets VF exactly when the first left a
drawn cell on. -/
def Obligations.DrawingTwiceRestoresCells : Prop :=
  ∀ (x y n : Reg) (s t u v : State), x ≠ flagReg → y ≠ flagReg →
    exec (.drw x y n) s = .next t → t.fault = none →
    u.fault = none → u.i = t.i → u.mem = t.mem → u.fb = t.fb → (∀ r, readV u r = readV t r) →
    exec (.drw x y n) u = .next v →
      v.fault = none ∧ (∀ k, readCell v k = readCell s k) ∧
      (vNat v flagReg = 1 ↔ ∃ k, DrawHits s x y n k ∧ readCell t k = true) ∧
      (vNat v flagReg = 0 ↔ ¬∃ k, DrawHits s x y n k ∧ readCell t k = true)

/-! ### `45_keypad_timers.md` -/

/-- R200, R201, R226: SKP and SKNP. -/
def Obligations.KeySkips : Prop :=
  ∀ (x : Reg) (g : Nibble) (s : State),
    (∀ k : Reg, vNat s x = k.val →
      (∃ t, exec (.skp x g) s = .next t ∧ t.pc = (if keyAt s k then s.pc + 2 else s.pc) ∧ UnchangedBut [.pc] s t) ∧
      (∃ t, exec (.sknp x g) s = .next t ∧ t.pc = (if keyAt s k then s.pc else s.pc + 2) ∧ UnchangedBut [.pc] s t)) ∧
    (vNat s x > 15 →
      (∃ t, exec (.skp x g) s = .next t ∧ Raised .keyIndexFault (vNat s x) s t) ∧
      (∃ t, exec (.sknp x g) s = .next t ∧ Raised .keyIndexFault (vNat s x) s t))

/-- R203: LD Vx, K takes the lowest pressed key, or runs again next cycle. -/
def Obligations.WaitForKeyTakesLowest : Prop :=
  ∀ (x : Reg) (s : State), ∃ t, exec (.ldVxK x) s = .next t ∧
    (∀ k : Reg, keyAt s k = true → (∀ j : Reg, j < k → keyAt s j = false) →
      vNat t x = k.val ∧ RegsBut [x] s t ∧ UnchangedBut [.regs] s t) ∧
    ((∀ k : Reg, keyAt s k = false) → t.pc = s.pc - 2 ∧ UnchangedBut [.pc] s t)

/-- R202: LD Vx, DT reads the delay timer before the cycle's tick. -/
def Obligations.ReadDelayTimerBeforeTick : Prop :=
  (∀ (x : Reg) (s : State), ∃ t, exec (.ldVxDt x) s = .next t ∧
    readV t x = s.dt ∧ RegsBut [x] s t ∧ UnchangedBut [.regs] s t) ∧
  ∀ (x : Reg) (s : State), Runs (.ldVxDt x) s → ∃ t, step s = .next t ∧
    readV t x = s.dt ∧ t.dt.toNat = s.dt.toNat - 1

/-- R204, R205: LD DT, Vx and LD ST, Vx, each ticked in the same cycle. -/
def Obligations.SetTimersThenTick : Prop :=
  (∀ (x : Reg) (s : State),
    (∃ t, exec (.ldDtVx x) s = .next t ∧ t.dt = readV s x ∧ UnchangedBut [.dt] s t) ∧
    (∃ t, exec (.ldStVx x) s = .next t ∧ t.st = readV s x ∧ UnchangedBut [.st] s t)) ∧
  ∀ (x : Reg) (s : State),
    (Runs (.ldDtVx x) s → ∃ t, step s = .next t ∧ t.dt.toNat = vNat s x - 1) ∧
    (Runs (.ldStVx x) s → ∃ t, step s = .next t ∧ t.st.toNat = vNat s x - 1)

/-! ### `60_exceptions.md`, `70_reset_and_hazards.md`: the host -/

/-- R263, R265: a program load puts the bytes at 0x200 and changes no other byte; a longer one is rejected whole. -/
def Obligations.LoadPlacesProgramVerbatim : Prop :=
  ∀ (bytes : List Byte) (s : State),
    (bytes.length > 3584 → loadProgram bytes s = .refused .loadTooLarge) ∧
    (bytes.length ≤ 3584 → loadAdmitted s = true → ∃ t, loadProgram bytes s = .next t ∧
      (∀ i (h : i < bytes.length), t.mem.read (0x200 + i) = bytes[i]) ∧
      (∀ a, ¬(0x200 ≤ a ∧ a < 0x200 + bytes.length) → t.mem.read a = s.mem.read a) ∧
      t.loaded = true ∧ UnchangedBut [.memory, .loaded] s t)

/-- R264: a load is admitted after construction, at most once, and never after a Step. -/
def Obligations.LoadAdmittedOnceBeforeFirstStep : Prop :=
  (∀ d, loadAdmitted (State.construct d) = true) ∧
  (∀ bytes s t, loadProgram bytes s = .next t → loadAdmitted t = false) ∧
  (∀ s t, step s = .next t → loadAdmitted t = false) ∧
  (∀ a s t, loadAdmitted s = false → act a s = .next t → loadAdmitted t = false) ∧
  (∀ bytes s, loadAdmitted s = false → ∃ r, loadProgram bytes s = .refused r)

/-- R241: the host sets any key to any level, and nothing else changes; no Step writes a key. -/
def Obligations.OnlyTheHostWritesKeys : Prop :=
  (∀ k b s, ∃ t, setKey k b s = .next t ∧ keyAt t k = b ∧ (∀ j, j ≠ k → keyAt t j = keyAt s j) ∧
    UnchangedBut [.keys] s t) ∧
  ∀ (n : Nat) (s t : State), core.run n s = .next t → ∀ k, keyAt t k = keyAt s k
end

