-- ==== Sys2Proof/Laws/Decode.lean ====
section
/-! SUPPORT. The fields of a word built by a format, and a word rebuilt from its fields (`30_encoding.md` R71, R72). -/

namespace Sys2Proof

/-! ### Fields of a built word -/

@[simp] theorem nibble_toNat (x : Reg) : (nibble x).toNat = x.val := rfl

@[simp] theorem toFin_nibble (x : Reg) : (nibble x).toFin = x := rfl

@[simp] theorem nibble_toFin (n : Nibble) : nibble n.toFin = n := rfl

/-- Concatenation as a number. -/
theorem append_toNat {m n : Nat} (a : BitVec m) (b : BitVec n) : (a ++ b).toNat = a.toNat * 2 ^ n + b.toNat := by
  rw [BitVec.toNat_append, ← Nat.shiftLeft_add_eq_or_of_lt b.isLt, Nat.shiftLeft_eq]

/-- A slice as a number. -/
theorem slice_toNat {m : Nat} (w : BitVec m) (lo len : Nat) :
    (w.extractLsb' lo len).toNat = w.toNat / 2 ^ lo % 2 ^ len := by
  simp [BitVec.extractLsb'_toNat, Nat.shiftRight_eq_div_pow]

@[simp] theorem opField_formatNNN (op : Nibble) (a : Addr12) : opField (formatNNN op a) = op := by
  apply BitVec.eq_of_toNat_eq
  rw [opField, slice_toNat, formatNNN, append_toNat]
  omega

@[simp] theorem nnnField_formatNNN (op : Nibble) (a : Addr12) : nnnField (formatNNN op a) = a := by
  apply BitVec.eq_of_toNat_eq
  rw [nnnField, slice_toNat, formatNNN, append_toNat]
  omega

@[simp] theorem nField_formatNNN (op : Nibble) (a : Addr12) : nField (formatNNN op a) = a.extractLsb' 0 4 := by
  apply BitVec.eq_of_toNat_eq
  rw [nField, slice_toNat, slice_toNat, formatNNN, append_toNat]
  omega

@[simp] theorem kkField_formatNNN (op : Nibble) (a : Addr12) : kkField (formatNNN op a) = a.extractLsb' 0 8 := by
  apply BitVec.eq_of_toNat_eq
  rw [kkField, slice_toNat, slice_toNat, formatNNN, append_toNat]
  omega

theorem formatXKK_toNat (op : Nibble) (x : Reg) (kk : Byte) :
    (formatXKK op x kk).toNat = (op.toNat * 16 + x.val) * 256 + kk.toNat := by
  rw [formatXKK, append_toNat, append_toNat]; rfl

theorem formatXYN_toNat (op : Nibble) (x : Reg) (y n : Nibble) :
    (formatXYN op x y n).toNat = ((op.toNat * 16 + x.val) * 16 + y.toNat) * 16 + n.toNat := by
  rw [formatXYN, append_toNat, append_toNat, append_toNat]; rfl

theorem formatNOX_toNat (g : BitVec 8) (n : Nibble) : (formatNOX g n).toNat = g.toNat * 16 + n.toNat := by
  rw [formatNOX, append_toNat, append_toNat]; simp

@[simp] theorem opField_formatXKK (op : Nibble) (x : Reg) (kk : Byte) : opField (formatXKK op x kk) = op := by
  apply BitVec.eq_of_toNat_eq
  rw [opField, slice_toNat, formatXKK_toNat]
  omega

@[simp] theorem xField_formatXKK (op : Nibble) (x : Reg) (kk : Byte) : xField (formatXKK op x kk) = x := by
  apply Fin.ext
  change ((formatXKK op x kk).extractLsb' 8 4).toNat = x.val
  rw [slice_toNat, formatXKK_toNat]
  omega

@[simp] theorem kkField_formatXKK (op : Nibble) (x : Reg) (kk : Byte) : kkField (formatXKK op x kk) = kk := by
  apply BitVec.eq_of_toNat_eq
  rw [kkField, slice_toNat, formatXKK_toNat]
  omega

@[simp] theorem opField_formatXYN (op : Nibble) (x : Reg) (y n : Nibble) : opField (formatXYN op x y n) = op := by
  apply BitVec.eq_of_toNat_eq
  rw [opField, slice_toNat, formatXYN_toNat]
  omega

@[simp] theorem xField_formatXYN (op : Nibble) (x : Reg) (y n : Nibble) : xField (formatXYN op x y n) = x := by
  apply Fin.ext
  change ((formatXYN op x y n).extractLsb' 8 4).toNat = x.val
  rw [slice_toNat, formatXYN_toNat]
  omega

@[simp] theorem midField_formatXYN (op : Nibble) (x : Reg) (y n : Nibble) : midField (formatXYN op x y n) = y := by
  apply BitVec.eq_of_toNat_eq
  rw [midField, slice_toNat, formatXYN_toNat]
  omega

@[simp] theorem yField_formatXYN (op : Nibble) (x : Reg) (y n : Nibble) : yField (formatXYN op x y n) = y.toFin :=
  congrArg BitVec.toFin (midField_formatXYN op x y n)

@[simp] theorem nField_formatXYN (op : Nibble) (x : Reg) (y n : Nibble) : nField (formatXYN op x y n) = n := by
  apply BitVec.eq_of_toNat_eq
  rw [nField, slice_toNat, formatXYN_toNat]
  omega

@[simp] theorem opField_formatNOX (g : BitVec 8) (n : Nibble) : opField (formatNOX g n) = 0x0 := by
  apply BitVec.eq_of_toNat_eq
  rw [opField, slice_toNat, formatNOX_toNat]
  simp; omega

@[simp] theorem highField_formatNOX (g : BitVec 8) (n : Nibble) : highField (formatNOX g n) = g := by
  apply BitVec.eq_of_toNat_eq
  rw [highField, slice_toNat, formatNOX_toNat]
  omega

@[simp] theorem nField_formatNOX (g : BitVec 8) (n : Nibble) : nField (formatNOX g n) = n := by
  apply BitVec.eq_of_toNat_eq
  rw [nField, slice_toNat, formatNOX_toNat]
  omega

/-! ### A word from its fields -/

theorem formatNNN_fields (w : Word) : formatNNN (opField w) (nnnField w) = w := by
  apply BitVec.eq_of_toNat_eq
  rw [formatNNN, append_toNat, opField, nnnField, slice_toNat, slice_toNat]
  omega

theorem formatXKK_fields (w : Word) : formatXKK (opField w) (xField w) (kkField w) = w := by
  apply BitVec.eq_of_toNat_eq
  have hx : (xField w).val = w.toNat / 2 ^ 8 % 2 ^ 4 := slice_toNat w 8 4
  rw [formatXKK_toNat, opField, kkField, slice_toNat, slice_toNat, hx]
  omega

theorem formatXYN_fields (w : Word) : formatXYN (opField w) (xField w) (midField w) (nField w) = w := by
  apply BitVec.eq_of_toNat_eq
  have hx : (xField w).val = w.toNat / 2 ^ 8 % 2 ^ 4 := slice_toNat w 8 4
  rw [formatXYN_toNat, opField, midField, nField, slice_toNat, slice_toNat, slice_toNat, hx]
  omega

theorem formatNOX_fields {w : Word} (h : opField w = 0x0) : formatNOX (highField w) (nField w) = w := by
  apply BitVec.eq_of_toNat_eq
  have h0 : w.toNat / 2 ^ 12 % 2 ^ 4 = 0 := by
    rw [← slice_toNat]; exact congrArg BitVec.toNat h
  rw [formatNOX_toNat, highField, nField, slice_toNat, slice_toNat]
  omega

theorem nibble_yField (w : Word) : nibble (yField w) = midField w := rfl

theorem nField_eq (w : Word) : (nnnField w).extractLsb' 0 4 = nField w := by
  rw [← nField_formatNNN (opField w), formatNNN_fields]

theorem kkField_eq (w : Word) : (nnnField w).extractLsb' 0 8 = kkField w := by
  rw [← kkField_formatNNN (opField w), formatNNN_fields]

/-! ### Bytes -/

@[simp] theorem wordOfBytes_bytesOfWord (w : Word) :
    wordOfBytes (w.extractLsb' 8 8) (w.extractLsb' 0 8) = w := by
  apply BitVec.eq_of_toNat_eq
  rw [wordOfBytes, append_toNat, slice_toNat, slice_toNat]
  omega

end Sys2Proof
end

