-- ==== Sys2Proof/Laws/State.lean ====
section
/-! SUPPORT. One lemma per field and per update of the state: what each named update leaves and what it writes. -/

namespace Sys2Proof.Machine

@[simp] theorem writeV_pc (s : State) (x : Reg) (b : Byte) : (writeV s x b).pc = s.pc := rfl
@[simp] theorem writeV_i (s : State) (x : Reg) (b : Byte) : (writeV s x b).i = s.i := rfl
@[simp] theorem writeV_sp (s : State) (x : Reg) (b : Byte) : (writeV s x b).sp = s.sp := rfl
@[simp] theorem writeV_stack (s : State) (x : Reg) (b : Byte) : (writeV s x b).stack = s.stack := rfl
@[simp] theorem writeV_dt (s : State) (x : Reg) (b : Byte) : (writeV s x b).dt = s.dt := rfl
@[simp] theorem writeV_st (s : State) (x : Reg) (b : Byte) : (writeV s x b).st = s.st := rfl
@[simp] theorem writeV_key (s : State) (x : Reg) (b : Byte) : (writeV s x b).key = s.key := rfl
@[simp] theorem writeV_fb (s : State) (x : Reg) (b : Byte) : (writeV s x b).fb = s.fb := rfl
@[simp] theorem writeV_opc (s : State) (x : Reg) (b : Byte) : (writeV s x b).opc = s.opc := rfl
@[simp] theorem writeV_mem (s : State) (x : Reg) (b : Byte) : (writeV s x b).mem = s.mem := rfl
@[simp] theorem writeV_fault (s : State) (x : Reg) (b : Byte) : (writeV s x b).fault = s.fault := rfl
@[simp] theorem writeV_loaded (s : State) (x : Reg) (b : Byte) : (writeV s x b).loaded = s.loaded := rfl
@[simp] theorem writeV_stepped (s : State) (x : Reg) (b : Byte) : (writeV s x b).stepped = s.stepped := rfl
@[simp] theorem writeV_draws (s : State) (x : Reg) (b : Byte) : (writeV s x b).draws = s.draws := rfl

@[simp] theorem setFlag_pc (s : State) (f : Byte) : (setFlag s f).pc = s.pc := rfl
@[simp] theorem setFlag_i (s : State) (f : Byte) : (setFlag s f).i = s.i := rfl
@[simp] theorem setFlag_sp (s : State) (f : Byte) : (setFlag s f).sp = s.sp := rfl
@[simp] theorem setFlag_stack (s : State) (f : Byte) : (setFlag s f).stack = s.stack := rfl
@[simp] theorem setFlag_dt (s : State) (f : Byte) : (setFlag s f).dt = s.dt := rfl
@[simp] theorem setFlag_st (s : State) (f : Byte) : (setFlag s f).st = s.st := rfl
@[simp] theorem setFlag_key (s : State) (f : Byte) : (setFlag s f).key = s.key := rfl
@[simp] theorem setFlag_fb (s : State) (f : Byte) : (setFlag s f).fb = s.fb := rfl
@[simp] theorem setFlag_opc (s : State) (f : Byte) : (setFlag s f).opc = s.opc := rfl
@[simp] theorem setFlag_mem (s : State) (f : Byte) : (setFlag s f).mem = s.mem := rfl
@[simp] theorem setFlag_fault (s : State) (f : Byte) : (setFlag s f).fault = s.fault := rfl
@[simp] theorem setFlag_loaded (s : State) (f : Byte) : (setFlag s f).loaded = s.loaded := rfl
@[simp] theorem setFlag_stepped (s : State) (f : Byte) : (setFlag s f).stepped = s.stepped := rfl
@[simp] theorem setFlag_draws (s : State) (f : Byte) : (setFlag s f).draws = s.draws := rfl

@[simp] theorem setPc_v (s : State) (w : Word) : (setPc s w).v = s.v := rfl
@[simp] theorem setPc_pc (s : State) (w : Word) : (setPc s w).pc = w := rfl
@[simp] theorem setPc_i (s : State) (w : Word) : (setPc s w).i = s.i := rfl
@[simp] theorem setPc_sp (s : State) (w : Word) : (setPc s w).sp = s.sp := rfl
@[simp] theorem setPc_stack (s : State) (w : Word) : (setPc s w).stack = s.stack := rfl
@[simp] theorem setPc_dt (s : State) (w : Word) : (setPc s w).dt = s.dt := rfl
@[simp] theorem setPc_st (s : State) (w : Word) : (setPc s w).st = s.st := rfl
@[simp] theorem setPc_key (s : State) (w : Word) : (setPc s w).key = s.key := rfl
@[simp] theorem setPc_fb (s : State) (w : Word) : (setPc s w).fb = s.fb := rfl
@[simp] theorem setPc_opc (s : State) (w : Word) : (setPc s w).opc = s.opc := rfl
@[simp] theorem setPc_mem (s : State) (w : Word) : (setPc s w).mem = s.mem := rfl
@[simp] theorem setPc_fault (s : State) (w : Word) : (setPc s w).fault = s.fault := rfl
@[simp] theorem setPc_loaded (s : State) (w : Word) : (setPc s w).loaded = s.loaded := rfl
@[simp] theorem setPc_stepped (s : State) (w : Word) : (setPc s w).stepped = s.stepped := rfl
@[simp] theorem setPc_draws (s : State) (w : Word) : (setPc s w).draws = s.draws := rfl

@[simp] theorem setI_v (s : State) (w : Word) : (setI s w).v = s.v := rfl
@[simp] theorem setI_pc (s : State) (w : Word) : (setI s w).pc = s.pc := rfl
@[simp] theorem setI_i (s : State) (w : Word) : (setI s w).i = w := rfl
@[simp] theorem setI_sp (s : State) (w : Word) : (setI s w).sp = s.sp := rfl
@[simp] theorem setI_stack (s : State) (w : Word) : (setI s w).stack = s.stack := rfl
@[simp] theorem setI_dt (s : State) (w : Word) : (setI s w).dt = s.dt := rfl
@[simp] theorem setI_st (s : State) (w : Word) : (setI s w).st = s.st := rfl
@[simp] theorem setI_key (s : State) (w : Word) : (setI s w).key = s.key := rfl
@[simp] theorem setI_fb (s : State) (w : Word) : (setI s w).fb = s.fb := rfl
@[simp] theorem setI_opc (s : State) (w : Word) : (setI s w).opc = s.opc := rfl
@[simp] theorem setI_mem (s : State) (w : Word) : (setI s w).mem = s.mem := rfl
@[simp] theorem setI_fault (s : State) (w : Word) : (setI s w).fault = s.fault := rfl
@[simp] theorem setI_loaded (s : State) (w : Word) : (setI s w).loaded = s.loaded := rfl
@[simp] theorem setI_stepped (s : State) (w : Word) : (setI s w).stepped = s.stepped := rfl
@[simp] theorem setI_draws (s : State) (w : Word) : (setI s w).draws = s.draws := rfl

@[simp] theorem setDt_v (s : State) (b : Byte) : (setDt s b).v = s.v := rfl
@[simp] theorem setDt_pc (s : State) (b : Byte) : (setDt s b).pc = s.pc := rfl
@[simp] theorem setDt_i (s : State) (b : Byte) : (setDt s b).i = s.i := rfl
@[simp] theorem setDt_sp (s : State) (b : Byte) : (setDt s b).sp = s.sp := rfl
@[simp] theorem setDt_stack (s : State) (b : Byte) : (setDt s b).stack = s.stack := rfl
@[simp] theorem setDt_dt (s : State) (b : Byte) : (setDt s b).dt = b := rfl
@[simp] theorem setDt_st (s : State) (b : Byte) : (setDt s b).st = s.st := rfl
@[simp] theorem setDt_key (s : State) (b : Byte) : (setDt s b).key = s.key := rfl
@[simp] theorem setDt_fb (s : State) (b : Byte) : (setDt s b).fb = s.fb := rfl
@[simp] theorem setDt_opc (s : State) (b : Byte) : (setDt s b).opc = s.opc := rfl
@[simp] theorem setDt_mem (s : State) (b : Byte) : (setDt s b).mem = s.mem := rfl
@[simp] theorem setDt_fault (s : State) (b : Byte) : (setDt s b).fault = s.fault := rfl
@[simp] theorem setDt_loaded (s : State) (b : Byte) : (setDt s b).loaded = s.loaded := rfl
@[simp] theorem setDt_stepped (s : State) (b : Byte) : (setDt s b).stepped = s.stepped := rfl
@[simp] theorem setDt_draws (s : State) (b : Byte) : (setDt s b).draws = s.draws := rfl

@[simp] theorem setSt_v (s : State) (b : Byte) : (setSt s b).v = s.v := rfl
@[simp] theorem setSt_pc (s : State) (b : Byte) : (setSt s b).pc = s.pc := rfl
@[simp] theorem setSt_i (s : State) (b : Byte) : (setSt s b).i = s.i := rfl
@[simp] theorem setSt_sp (s : State) (b : Byte) : (setSt s b).sp = s.sp := rfl
@[simp] theorem setSt_stack (s : State) (b : Byte) : (setSt s b).stack = s.stack := rfl
@[simp] theorem setSt_dt (s : State) (b : Byte) : (setSt s b).dt = s.dt := rfl
@[simp] theorem setSt_st (s : State) (b : Byte) : (setSt s b).st = b := rfl
@[simp] theorem setSt_key (s : State) (b : Byte) : (setSt s b).key = s.key := rfl
@[simp] theorem setSt_fb (s : State) (b : Byte) : (setSt s b).fb = s.fb := rfl
@[simp] theorem setSt_opc (s : State) (b : Byte) : (setSt s b).opc = s.opc := rfl
@[simp] theorem setSt_mem (s : State) (b : Byte) : (setSt s b).mem = s.mem := rfl
@[simp] theorem setSt_fault (s : State) (b : Byte) : (setSt s b).fault = s.fault := rfl
@[simp] theorem setSt_loaded (s : State) (b : Byte) : (setSt s b).loaded = s.loaded := rfl
@[simp] theorem setSt_stepped (s : State) (b : Byte) : (setSt s b).stepped = s.stepped := rfl
@[simp] theorem setSt_draws (s : State) (b : Byte) : (setSt s b).draws = s.draws := rfl

@[simp] theorem pokeMem_v (s : State) (a : Nat) (b : Byte) : (pokeMem s a b).v = s.v := rfl
@[simp] theorem pokeMem_pc (s : State) (a : Nat) (b : Byte) : (pokeMem s a b).pc = s.pc := rfl
@[simp] theorem pokeMem_i (s : State) (a : Nat) (b : Byte) : (pokeMem s a b).i = s.i := rfl
@[simp] theorem pokeMem_sp (s : State) (a : Nat) (b : Byte) : (pokeMem s a b).sp = s.sp := rfl
@[simp] theorem pokeMem_stack (s : State) (a : Nat) (b : Byte) : (pokeMem s a b).stack = s.stack := rfl
@[simp] theorem pokeMem_dt (s : State) (a : Nat) (b : Byte) : (pokeMem s a b).dt = s.dt := rfl
@[simp] theorem pokeMem_st (s : State) (a : Nat) (b : Byte) : (pokeMem s a b).st = s.st := rfl
@[simp] theorem pokeMem_key (s : State) (a : Nat) (b : Byte) : (pokeMem s a b).key = s.key := rfl
@[simp] theorem pokeMem_fb (s : State) (a : Nat) (b : Byte) : (pokeMem s a b).fb = s.fb := rfl
@[simp] theorem pokeMem_opc (s : State) (a : Nat) (b : Byte) : (pokeMem s a b).opc = s.opc := rfl
@[simp] theorem pokeMem_mem (s : State) (a : Nat) (b : Byte) : (pokeMem s a b).mem = s.mem.write a b := rfl
@[simp] theorem pokeMem_fault (s : State) (a : Nat) (b : Byte) : (pokeMem s a b).fault = s.fault := rfl
@[simp] theorem pokeMem_loaded (s : State) (a : Nat) (b : Byte) : (pokeMem s a b).loaded = s.loaded := rfl
@[simp] theorem pokeMem_stepped (s : State) (a : Nat) (b : Byte) : (pokeMem s a b).stepped = s.stepped := rfl
@[simp] theorem pokeMem_draws (s : State) (a : Nat) (b : Byte) : (pokeMem s a b).draws = s.draws := rfl

@[simp] theorem clearFb_v (s : State) : (clearFb s).v = s.v := rfl
@[simp] theorem clearFb_pc (s : State) : (clearFb s).pc = s.pc := rfl
@[simp] theorem clearFb_i (s : State) : (clearFb s).i = s.i := rfl
@[simp] theorem clearFb_sp (s : State) : (clearFb s).sp = s.sp := rfl
@[simp] theorem clearFb_stack (s : State) : (clearFb s).stack = s.stack := rfl
@[simp] theorem clearFb_dt (s : State) : (clearFb s).dt = s.dt := rfl
@[simp] theorem clearFb_st (s : State) : (clearFb s).st = s.st := rfl
@[simp] theorem clearFb_key (s : State) : (clearFb s).key = s.key := rfl
@[simp] theorem clearFb_fb (s : State) : (clearFb s).fb = Vector.replicate 2048 false := rfl
@[simp] theorem clearFb_opc (s : State) : (clearFb s).opc = s.opc := rfl
@[simp] theorem clearFb_mem (s : State) : (clearFb s).mem = s.mem := rfl
@[simp] theorem clearFb_fault (s : State) : (clearFb s).fault = s.fault := rfl
@[simp] theorem clearFb_loaded (s : State) : (clearFb s).loaded = s.loaded := rfl
@[simp] theorem clearFb_stepped (s : State) : (clearFb s).stepped = s.stepped := rfl
@[simp] theorem clearFb_draws (s : State) : (clearFb s).draws = s.draws := rfl

@[simp] theorem toggleCell_v (s : State) (k : Fin 2048) : (toggleCell s k).v = s.v := rfl
@[simp] theorem toggleCell_pc (s : State) (k : Fin 2048) : (toggleCell s k).pc = s.pc := rfl
@[simp] theorem toggleCell_i (s : State) (k : Fin 2048) : (toggleCell s k).i = s.i := rfl
@[simp] theorem toggleCell_sp (s : State) (k : Fin 2048) : (toggleCell s k).sp = s.sp := rfl
@[simp] theorem toggleCell_stack (s : State) (k : Fin 2048) : (toggleCell s k).stack = s.stack := rfl
@[simp] theorem toggleCell_dt (s : State) (k : Fin 2048) : (toggleCell s k).dt = s.dt := rfl
@[simp] theorem toggleCell_st (s : State) (k : Fin 2048) : (toggleCell s k).st = s.st := rfl
@[simp] theorem toggleCell_key (s : State) (k : Fin 2048) : (toggleCell s k).key = s.key := rfl
@[simp] theorem toggleCell_fb (s : State) (k : Fin 2048) : (toggleCell s k).fb = s.fb.set k.val (!readCell s k) k.isLt := rfl
@[simp] theorem toggleCell_opc (s : State) (k : Fin 2048) : (toggleCell s k).opc = s.opc := rfl
@[simp] theorem toggleCell_mem (s : State) (k : Fin 2048) : (toggleCell s k).mem = s.mem := rfl
@[simp] theorem toggleCell_fault (s : State) (k : Fin 2048) : (toggleCell s k).fault = s.fault := rfl
@[simp] theorem toggleCell_loaded (s : State) (k : Fin 2048) : (toggleCell s k).loaded = s.loaded := rfl
@[simp] theorem toggleCell_stepped (s : State) (k : Fin 2048) : (toggleCell s k).stepped = s.stepped := rfl
@[simp] theorem toggleCell_draws (s : State) (k : Fin 2048) : (toggleCell s k).draws = s.draws := rfl

@[simp] theorem tick_v (s : State) : (tick s).v = s.v := rfl
@[simp] theorem tick_pc (s : State) : (tick s).pc = s.pc := rfl
@[simp] theorem tick_i (s : State) : (tick s).i = s.i := rfl
@[simp] theorem tick_sp (s : State) : (tick s).sp = s.sp := rfl
@[simp] theorem tick_stack (s : State) : (tick s).stack = s.stack := rfl
@[simp] theorem tick_dt (s : State) : (tick s).dt = countDown s.dt := rfl
@[simp] theorem tick_st (s : State) : (tick s).st = countDown s.st := rfl
@[simp] theorem tick_key (s : State) : (tick s).key = s.key := rfl
@[simp] theorem tick_fb (s : State) : (tick s).fb = s.fb := rfl
@[simp] theorem tick_opc (s : State) : (tick s).opc = s.opc := rfl
@[simp] theorem tick_mem (s : State) : (tick s).mem = s.mem := rfl
@[simp] theorem tick_fault (s : State) : (tick s).fault = s.fault := rfl
@[simp] theorem tick_loaded (s : State) : (tick s).loaded = s.loaded := rfl
@[simp] theorem tick_stepped (s : State) : (tick s).stepped = s.stepped := rfl
@[simp] theorem tick_draws (s : State) : (tick s).draws = s.draws := rfl

@[simp] theorem latchAndAdvance_v (s : State) (w : Word) : (latchAndAdvance s w).v = s.v := rfl
@[simp] theorem latchAndAdvance_pc (s : State) (w : Word) : (latchAndAdvance s w).pc = s.pc + 2 := rfl
@[simp] theorem latchAndAdvance_i (s : State) (w : Word) : (latchAndAdvance s w).i = s.i := rfl
@[simp] theorem latchAndAdvance_sp (s : State) (w : Word) : (latchAndAdvance s w).sp = s.sp := rfl
@[simp] theorem latchAndAdvance_stack (s : State) (w : Word) : (latchAndAdvance s w).stack = s.stack := rfl
@[simp] theorem latchAndAdvance_dt (s : State) (w : Word) : (latchAndAdvance s w).dt = s.dt := rfl
@[simp] theorem latchAndAdvance_st (s : State) (w : Word) : (latchAndAdvance s w).st = s.st := rfl
@[simp] theorem latchAndAdvance_key (s : State) (w : Word) : (latchAndAdvance s w).key = s.key := rfl
@[simp] theorem latchAndAdvance_fb (s : State) (w : Word) : (latchAndAdvance s w).fb = s.fb := rfl
@[simp] theorem latchAndAdvance_opc (s : State) (w : Word) : (latchAndAdvance s w).opc = w := rfl
@[simp] theorem latchAndAdvance_mem (s : State) (w : Word) : (latchAndAdvance s w).mem = s.mem := rfl
@[simp] theorem latchAndAdvance_fault (s : State) (w : Word) : (latchAndAdvance s w).fault = s.fault := rfl
@[simp] theorem latchAndAdvance_loaded (s : State) (w : Word) : (latchAndAdvance s w).loaded = s.loaded := rfl
@[simp] theorem latchAndAdvance_stepped (s : State) (w : Word) : (latchAndAdvance s w).stepped = s.stepped := rfl
@[simp] theorem latchAndAdvance_draws (s : State) (w : Word) : (latchAndAdvance s w).draws = s.draws := rfl

@[simp] theorem recordFault_v (s : State) (r : Raise) (p : Word) (o : Option Word) : (recordFault s r p o).v = s.v := rfl
@[simp] theorem recordFault_pc (s : State) (r : Raise) (p : Word) (o : Option Word) : (recordFault s r p o).pc = s.pc := rfl
@[simp] theorem recordFault_i (s : State) (r : Raise) (p : Word) (o : Option Word) : (recordFault s r p o).i = s.i := rfl
@[simp] theorem recordFault_sp (s : State) (r : Raise) (p : Word) (o : Option Word) : (recordFault s r p o).sp = s.sp := rfl
@[simp] theorem recordFault_stack (s : State) (r : Raise) (p : Word) (o : Option Word) : (recordFault s r p o).stack = s.stack := rfl
@[simp] theorem recordFault_dt (s : State) (r : Raise) (p : Word) (o : Option Word) : (recordFault s r p o).dt = s.dt := rfl
@[simp] theorem recordFault_st (s : State) (r : Raise) (p : Word) (o : Option Word) : (recordFault s r p o).st = s.st := rfl
@[simp] theorem recordFault_key (s : State) (r : Raise) (p : Word) (o : Option Word) : (recordFault s r p o).key = s.key := rfl
@[simp] theorem recordFault_fb (s : State) (r : Raise) (p : Word) (o : Option Word) : (recordFault s r p o).fb = s.fb := rfl
@[simp] theorem recordFault_opc (s : State) (r : Raise) (p : Word) (o : Option Word) : (recordFault s r p o).opc = s.opc := rfl
@[simp] theorem recordFault_mem (s : State) (r : Raise) (p : Word) (o : Option Word) : (recordFault s r p o).mem = s.mem := rfl
@[simp] theorem recordFault_fault (s : State) (r : Raise) (p : Word) (o : Option Word) : (recordFault s r p o).fault = some ⟨r.1, p, o, r.2⟩ := rfl
@[simp] theorem recordFault_loaded (s : State) (r : Raise) (p : Word) (o : Option Word) : (recordFault s r p o).loaded = s.loaded := rfl
@[simp] theorem recordFault_stepped (s : State) (r : Raise) (p : Word) (o : Option Word) : (recordFault s r p o).stepped = s.stepped := rfl
@[simp] theorem recordFault_draws (s : State) (r : Raise) (p : Word) (o : Option Word) : (recordFault s r p o).draws = s.draws := rfl

@[simp] theorem raiseFault_v (s : State) (r : Raise) : (raiseFault s r).v = s.v := rfl
@[simp] theorem raiseFault_pc (s : State) (r : Raise) : (raiseFault s r).pc = s.pc := rfl
@[simp] theorem raiseFault_i (s : State) (r : Raise) : (raiseFault s r).i = s.i := rfl
@[simp] theorem raiseFault_sp (s : State) (r : Raise) : (raiseFault s r).sp = s.sp := rfl
@[simp] theorem raiseFault_stack (s : State) (r : Raise) : (raiseFault s r).stack = s.stack := rfl
@[simp] theorem raiseFault_dt (s : State) (r : Raise) : (raiseFault s r).dt = s.dt := rfl
@[simp] theorem raiseFault_st (s : State) (r : Raise) : (raiseFault s r).st = s.st := rfl
@[simp] theorem raiseFault_key (s : State) (r : Raise) : (raiseFault s r).key = s.key := rfl
@[simp] theorem raiseFault_fb (s : State) (r : Raise) : (raiseFault s r).fb = s.fb := rfl
@[simp] theorem raiseFault_opc (s : State) (r : Raise) : (raiseFault s r).opc = s.opc := rfl
@[simp] theorem raiseFault_mem (s : State) (r : Raise) : (raiseFault s r).mem = s.mem := rfl
@[simp] theorem raiseFault_fault (s : State) (r : Raise) : (raiseFault s r).fault = some ⟨r.1, s.pc - 2, some s.opc, r.2⟩ := rfl
@[simp] theorem raiseFault_loaded (s : State) (r : Raise) : (raiseFault s r).loaded = s.loaded := rfl
@[simp] theorem raiseFault_stepped (s : State) (r : Raise) : (raiseFault s r).stepped = s.stepped := rfl
@[simp] theorem raiseFault_draws (s : State) (r : Raise) : (raiseFault s r).draws = s.draws := rfl

@[simp] theorem abandonCycle_v (s t : State) : (abandonCycle s t).v = s.v := rfl
@[simp] theorem abandonCycle_pc (s t : State) : (abandonCycle s t).pc = s.pc := rfl
@[simp] theorem abandonCycle_i (s t : State) : (abandonCycle s t).i = s.i := rfl
@[simp] theorem abandonCycle_sp (s t : State) : (abandonCycle s t).sp = s.sp := rfl
@[simp] theorem abandonCycle_stack (s t : State) : (abandonCycle s t).stack = s.stack := rfl
@[simp] theorem abandonCycle_dt (s t : State) : (abandonCycle s t).dt = s.dt := rfl
@[simp] theorem abandonCycle_st (s t : State) : (abandonCycle s t).st = s.st := rfl
@[simp] theorem abandonCycle_key (s t : State) : (abandonCycle s t).key = s.key := rfl
@[simp] theorem abandonCycle_fb (s t : State) : (abandonCycle s t).fb = s.fb := rfl
@[simp] theorem abandonCycle_opc (s t : State) : (abandonCycle s t).opc = s.opc := rfl
@[simp] theorem abandonCycle_mem (s t : State) : (abandonCycle s t).mem = s.mem := rfl
@[simp] theorem abandonCycle_fault (s t : State) : (abandonCycle s t).fault = t.fault := rfl
@[simp] theorem abandonCycle_loaded (s t : State) : (abandonCycle s t).loaded = s.loaded := rfl
@[simp] theorem abandonCycle_stepped (s t : State) : (abandonCycle s t).stepped = s.stepped := rfl
@[simp] theorem abandonCycle_draws (s t : State) : (abandonCycle s t).draws = s.draws := rfl

@[simp] theorem construct_v (d : Launch) : (State.construct d).v = d.v := rfl
@[simp] theorem construct_pc (d : Launch) : (State.construct d).pc = 0x200 := rfl
@[simp] theorem construct_i (d : Launch) : (State.construct d).i = d.i := rfl
@[simp] theorem construct_sp (d : Launch) : (State.construct d).sp = 0 := rfl
@[simp] theorem construct_stack (d : Launch) : (State.construct d).stack = d.stack := rfl
@[simp] theorem construct_dt (d : Launch) : (State.construct d).dt = d.dt := rfl
@[simp] theorem construct_st (d : Launch) : (State.construct d).st = d.st := rfl
@[simp] theorem construct_key (d : Launch) : (State.construct d).key = d.key := rfl
@[simp] theorem construct_fb (d : Launch) : (State.construct d).fb = d.fb := rfl
@[simp] theorem construct_opc (d : Launch) : (State.construct d).opc = d.opc := rfl
@[simp] theorem construct_mem (d : Launch) : (State.construct d).mem = [] := rfl
@[simp] theorem construct_fault (d : Launch) : (State.construct d).fault = none := rfl
@[simp] theorem construct_loaded (d : Launch) : (State.construct d).loaded = false := rfl
@[simp] theorem construct_stepped (d : Launch) : (State.construct d).stepped = false := rfl
@[simp] theorem construct_draws (d : Launch) : (State.construct d).draws = d.draws := rfl

@[simp] theorem skipIf_v (c : Bool) (s : State) : (skipIf c s).v = s.v := by cases c <;> rfl
@[simp] theorem skipIf_i (c : Bool) (s : State) : (skipIf c s).i = s.i := by cases c <;> rfl
@[simp] theorem skipIf_sp (c : Bool) (s : State) : (skipIf c s).sp = s.sp := by cases c <;> rfl
@[simp] theorem skipIf_stack (c : Bool) (s : State) : (skipIf c s).stack = s.stack := by cases c <;> rfl
@[simp] theorem skipIf_dt (c : Bool) (s : State) : (skipIf c s).dt = s.dt := by cases c <;> rfl
@[simp] theorem skipIf_st (c : Bool) (s : State) : (skipIf c s).st = s.st := by cases c <;> rfl
@[simp] theorem skipIf_key (c : Bool) (s : State) : (skipIf c s).key = s.key := by cases c <;> rfl
@[simp] theorem skipIf_fb (c : Bool) (s : State) : (skipIf c s).fb = s.fb := by cases c <;> rfl
@[simp] theorem skipIf_opc (c : Bool) (s : State) : (skipIf c s).opc = s.opc := by cases c <;> rfl
@[simp] theorem skipIf_mem (c : Bool) (s : State) : (skipIf c s).mem = s.mem := by cases c <;> rfl
@[simp] theorem skipIf_fault (c : Bool) (s : State) : (skipIf c s).fault = s.fault := by cases c <;> rfl
@[simp] theorem skipIf_loaded (c : Bool) (s : State) : (skipIf c s).loaded = s.loaded := by cases c <;> rfl
@[simp] theorem skipIf_stepped (c : Bool) (s : State) : (skipIf c s).stepped = s.stepped := by cases c <;> rfl
@[simp] theorem skipIf_draws (c : Bool) (s : State) : (skipIf c s).draws = s.draws := by cases c <;> rfl

@[simp] theorem skipIf_pc (c : Bool) (s : State) : (skipIf c s).pc = if c then s.pc + 2 else s.pc := by
  cases c <;> rfl

@[simp] theorem noteCollision_pc (s : State) (k : Fin 2048) : (noteCollision s k).pc = s.pc := by
  unfold noteCollision; split <;> rfl
@[simp] theorem noteCollision_i (s : State) (k : Fin 2048) : (noteCollision s k).i = s.i := by
  unfold noteCollision; split <;> rfl
@[simp] theorem noteCollision_sp (s : State) (k : Fin 2048) : (noteCollision s k).sp = s.sp := by
  unfold noteCollision; split <;> rfl
@[simp] theorem noteCollision_stack (s : State) (k : Fin 2048) : (noteCollision s k).stack = s.stack := by
  unfold noteCollision; split <;> rfl
@[simp] theorem noteCollision_dt (s : State) (k : Fin 2048) : (noteCollision s k).dt = s.dt := by
  unfold noteCollision; split <;> rfl
@[simp] theorem noteCollision_st (s : State) (k : Fin 2048) : (noteCollision s k).st = s.st := by
  unfold noteCollision; split <;> rfl
@[simp] theorem noteCollision_key (s : State) (k : Fin 2048) : (noteCollision s k).key = s.key := by
  unfold noteCollision; split <;> rfl
@[simp] theorem noteCollision_fb (s : State) (k : Fin 2048) : (noteCollision s k).fb = s.fb := by
  unfold noteCollision; split <;> rfl
@[simp] theorem noteCollision_opc (s : State) (k : Fin 2048) : (noteCollision s k).opc = s.opc := by
  unfold noteCollision; split <;> rfl
@[simp] theorem noteCollision_mem (s : State) (k : Fin 2048) : (noteCollision s k).mem = s.mem := by
  unfold noteCollision; split <;> rfl
@[simp] theorem noteCollision_fault (s : State) (k : Fin 2048) : (noteCollision s k).fault = s.fault := by
  unfold noteCollision; split <;> rfl
@[simp] theorem noteCollision_loaded (s : State) (k : Fin 2048) : (noteCollision s k).loaded = s.loaded := by
  unfold noteCollision; split <;> rfl
@[simp] theorem noteCollision_stepped (s : State) (k : Fin 2048) : (noteCollision s k).stepped = s.stepped := by
  unfold noteCollision; split <;> rfl
@[simp] theorem noteCollision_draws (s : State) (k : Fin 2048) : (noteCollision s k).draws = s.draws := by
  unfold noteCollision; split <;> rfl

/-! ### Reading a register after an update -/

@[simp] theorem readV_writeV_same (s : State) (x : Reg) (b : Byte) : readV (writeV s x b) x = b := by
  simp [readV, writeV]

theorem readV_writeV_other (s : State) {x r : Reg} (b : Byte) (h : r ≠ x) :
    readV (writeV s x b) r = readV s r := by
  have : x.val ≠ r.val := fun e => h (Fin.ext e.symm)
  simp [readV, writeV, this]

theorem readV_writeV (s : State) (x r : Reg) (b : Byte) :
    readV (writeV s x b) r = if r = x then b else readV s r := by
  split
  · next h => subst h; simp
  · next h => exact readV_writeV_other s b h

@[simp] theorem readV_setFlag_same (s : State) (f : Byte) : readV (setFlag s f) flagReg = f :=
  readV_writeV_same s _ f

theorem readV_setFlag (s : State) (r : Reg) (f : Byte) :
    readV (setFlag s f) r = if r = flagReg then f else readV s r :=
  readV_writeV s flagReg r f

/-- An update that leaves the register file leaves every register. -/
theorem readV_congr {s t : State} (h : t.v = s.v) (r : Reg) : readV t r = readV s r := by
  simp [readV, h]

/-! ### Reading a cell after an update -/

@[simp] theorem clearFb_cell (s : State) (k : Fin 2048) : readCell (clearFb s) k = false := by
  simp [clearFb, readCell]

theorem toggleCell_cell (s : State) (k j : Fin 2048) :
    readCell (toggleCell s k) j = if j = k then !readCell s k else readCell s j := by
  by_cases h : j = k
  · subst h; simp [toggleCell, readCell]
  · have : k.val ≠ j.val := fun e => h (Fin.ext e.symm)
    simp [toggleCell, readCell, this, h]

/-! ### Reading parts that an update leaves -/

theorem readCell_congr {s t : State} (h : t.fb = s.fb) (k : Fin 2048) : readCell t k = readCell s k := by
  simp [readCell, h]

theorem slotAt_congr {s t : State} (h : t.stack = s.stack) (k : Fin 16) : slotAt t k = slotAt s k := by
  simp [slotAt, h]

theorem keyAt_congr {s t : State} (h : t.key = s.key) (k : Reg) : keyAt t k = keyAt s k := by
  simp [keyAt, h]

/-! ### The countdown -/

/-- A timer counts down by one and stops at 0 (R31, R230). -/
theorem countDown_toNat (b : Byte) : (countDown b).toNat = b.toNat - 1 := by
  unfold countDown
  split
  · next h => bv_omega
  · next h => bv_omega

end Sys2Proof.Machine
end

