-- ==== Sys2Proof/Laws/Memory.lean ====
section
/-! SUPPORT. Memory: read after write, and the canonical form kept by every operation (`20_memory.md` R50 to R54). -/

namespace Sys2Proof.Machine

/-! ### Read after write -/

theorem Memory.read_erase_same (m : Memory) (a : Nat) : (m.erase a).read a = background a := by
  induction m with
  | nil => rfl
  | cons c m ih =>
    obtain ⟨k, b⟩ := c
    by_cases h : k = a
    · simpa [Memory.erase, h] using ih
    · simpa [Memory.erase, h, Memory.read] using ih

theorem Memory.read_erase_other (m : Memory) {a c : Nat} (h : c ≠ a) : (m.erase a).read c = m.read c := by
  induction m with
  | nil => rfl
  | cons d m ih =>
    obtain ⟨k, b⟩ := d
    by_cases hk : k = a
    · have : k ≠ c := fun e => h (e ▸ hk)
      simpa [Memory.erase, hk, Memory.read, Ne.symm h] using ih
    · have ih' : Memory.read (List.filter (fun c => !decide (c.1 = a)) m) c = Memory.read m c := by
        simpa [Memory.erase] using ih
      simp [Memory.erase, hk, Memory.read, ih']

theorem Memory.read_insert_same (m : Memory) (a : Nat) (b : Byte) (h : ∀ c ∈ m, c.1 ≠ a) :
    (m.insert a b).read a = b := by
  induction m with
  | nil => simp [Memory.insert, Memory.read]
  | cons c m ih =>
    obtain ⟨k, d⟩ := c
    have hk : k ≠ a := h (k, d) (by simp)
    have hm : ∀ c ∈ m, c.1 ≠ a := fun c hc => h c (by simp [hc])
    unfold Memory.insert
    split
    · simp [Memory.read]
    · simp [Memory.read, hk, ih hm]

theorem Memory.read_insert_other (m : Memory) {a c : Nat} (b : Byte) (h : c ≠ a) :
    (m.insert a b).read c = m.read c := by
  induction m with
  | nil => simp [Memory.insert, Memory.read, Ne.symm h]
  | cons d m ih =>
    obtain ⟨k, e⟩ := d
    unfold Memory.insert
    split
    · simp [Memory.read, Ne.symm h]
    · simp [Memory.read, ih]

theorem Memory.mem_erase {m : Memory} {a : Nat} {c : Host.Cell} : c ∈ m.erase a ↔ c ∈ m ∧ c.1 ≠ a := by
  simp [Memory.erase]

/-- The byte written is the byte read. -/
@[simp] theorem Memory.read_write_same (m : Memory) (a : Nat) (b : Byte) : (m.write a b).read a = b := by
  unfold Memory.write
  split
  · next h => rw [Memory.read_erase_same, h]
  · exact Memory.read_insert_same _ a b fun c hc => (Memory.mem_erase.mp hc).2

/-- Every other byte reads as before. -/
theorem Memory.read_write_other (m : Memory) {a c : Nat} (b : Byte) (h : c ≠ a) :
    (m.write a b).read c = m.read c := by
  unfold Memory.write
  split
  · exact Memory.read_erase_other m h
  · rw [Memory.read_insert_other _ b h, Memory.read_erase_other m h]

theorem Memory.read_write (m : Memory) (a c : Nat) (b : Byte) :
    (m.write a b).read c = if c = a then b else m.read c := by
  split
  · next h => subst h; simp
  · next h => exact Memory.read_write_other m b h

/-! ### The canonical form -/

theorem Memory.mem_insert {m : Memory} {a : Nat} {b : Byte} {c : Host.Cell} :
    c ∈ m.insert a b ↔ c = (a, b) ∨ c ∈ m := by
  induction m with
  | nil => simp [Memory.insert]
  | cons d m ih =>
    obtain ⟨k, e⟩ := d
    unfold Memory.insert
    split
    · simp
    · simp only [List.mem_cons, ih]; tauto

theorem Memory.pairwise_insert {m : Memory} {a : Nat} {b : Byte}
    (hp : m.Pairwise fun c d => c.1 < d.1) (hn : ∀ c ∈ m, c.1 ≠ a) :
    (m.insert a b).Pairwise fun c d => c.1 < d.1 := by
  induction m with
  | nil => simp [Memory.insert]
  | cons d m ih =>
    obtain ⟨k, e⟩ := d
    rw [List.pairwise_cons] at hp
    have hk : k ≠ a := hn (k, e) (by simp)
    unfold Memory.insert
    split
    · next h =>
      rw [List.pairwise_cons, List.pairwise_cons]
      refine ⟨fun c hc => ?_, hp⟩
      rcases List.mem_cons.mp hc with rfl | hc
      · exact h
      · exact lt_trans h (hp.1 c hc)
    · next h =>
      rw [List.pairwise_cons]
      refine ⟨fun c hc => ?_, ih hp.2 fun c hc => hn c (by simp [hc])⟩
      rcases Memory.mem_insert.mp hc with rfl | hc
      · simp only; omega
      · exact hp.1 c hc

theorem Memory.erase_wf {m : Memory} (a : Nat) (h : m.wf) : (m.erase a).wf :=
  ⟨h.1.filter _, fun c hc => h.2 c (Memory.mem_erase.mp hc).1⟩

/-- A write inside the address space keeps the canonical form. -/
theorem Memory.write_wf {m : Memory} {a : Nat} (b : Byte) (ha : a < 4096) (h : m.wf) : (m.write a b).wf := by
  unfold Memory.write
  split
  · exact Memory.erase_wf a h
  · next hb =>
    have he := Memory.erase_wf a h
    refine ⟨Memory.pairwise_insert he.1 fun c hc => (Memory.mem_erase.mp hc).2, fun c hc => ?_⟩
    rcases Memory.mem_insert.mp hc with rfl | hc
    · exact ⟨ha, hb⟩
    · exact he.2 c hc

/-- The empty listing of reset is canonical. -/
theorem Memory.nil_wf : Memory.wf [] := by decide

/-- The address a listing holds and what it reads as decide the listing: canonical memories that read alike are equal. -/
theorem Memory.read_of_mem {m : Memory} (h : m.wf) {c : Host.Cell} (hc : c ∈ m) : m.read c.1 = c.2 := by
  induction m with
  | nil => simp at hc
  | cons d m ih =>
    obtain ⟨k, e⟩ := d
    have hp := List.pairwise_cons.mp h.1
    rcases List.mem_cons.mp hc with rfl | hc
    · simp [Memory.read]
    · have : k ≠ c.1 := by have := hp.1 c hc; simp only at this; omega
      simp [Memory.read, this, ih ⟨hp.2, fun c hc => h.2 c (by simp [hc])⟩ hc]

/-! ### The primitives of R53 and R54 -/

theorem memRead_ok {s : State} {a : Nat} (h : a ≤ 0xFFF) : memRead s a = .ok (s.mem.read a) := by
  simp [memRead, Nat.not_lt.mpr h]

theorem memRead_fault {s : State} {a : Nat} (h : 0xFFF < a) : memRead s a = .error (.memoryFault, a) := by
  simp [memRead, h]

theorem memRead_eq_ok {s : State} {a : Nat} {b : Byte} (h : memRead s a = .ok b) :
    a ≤ 0xFFF ∧ b = s.mem.read a := by
  unfold memRead at h
  split at h
  · cases h
  · cases h; exact ⟨by omega, rfl⟩

theorem memRead_eq_error {s : State} {a : Nat} {e : Raise} (h : memRead s a = .error e) :
    0xFFF < a ∧ e = (.memoryFault, a) := by
  unfold memRead at h
  split at h
  · cases h; exact ⟨by omega, rfl⟩
  · cases h

theorem memWrite_ok {s : State} {a : Nat} {b : Byte} (lo : 0x200 ≤ a) (hi : a ≤ 0xFFF) :
    memWrite s a b = .ok (pokeMem s a b) := by
  simp [memWrite, Nat.not_lt.mpr hi, Nat.not_lt.mpr lo]

theorem memWrite_eq_ok {s t : State} {a : Nat} {b : Byte} (h : memWrite s a b = .ok t) :
    0x200 ≤ a ∧ a ≤ 0xFFF ∧ t = pokeMem s a b := by
  unfold memWrite at h
  split at h
  · cases h
  · split at h
    · cases h
    · cases h; exact ⟨by omega, by omega, rfl⟩

theorem memWrite_eq_error {s : State} {a : Nat} {b : Byte} {e : Raise} (h : memWrite s a b = .error e) :
    (0xFFF < a ∧ e = (.memoryFault, a)) ∨ (a < 0x200 ∧ e = (.reservedWriteFault, a)) := by
  unfold memWrite at h
  split at h
  · cases h; exact .inl ⟨by omega, rfl⟩
  · split at h
    · cases h; exact .inr ⟨by omega, rfl⟩
    · cases h

/-! ### A list of stores -/

/-- What a list of stores does when it goes through: only memory changes, every address is writable, and an address no
pair names reads as before. -/
theorem storeAll_eq_ok {l : List (Nat × Byte)} {s t : State} (h : storeAll l s = .ok t) :
    (∀ p ∈ l, 0x200 ≤ p.1 ∧ p.1 ≤ 0xFFF) ∧ t = { s with mem := t.mem } ∧
      (∀ a, (∀ p ∈ l, p.1 ≠ a) → t.mem.read a = s.mem.read a) ∧ (s.mem.wf → t.mem.wf) := by
  induction l generalizing s with
  | nil => cases h; simp
  | cons p l ih =>
    obtain ⟨a, b⟩ := p
    simp only [storeAll] at h
    split at h
    · cases h
    · next u hu =>
      obtain ⟨lo, hi, rfl⟩ := memWrite_eq_ok hu
      obtain ⟨h1, h2, h3, h4⟩ := ih h
      refine ⟨?_, h2, ?_, fun hw => h4 (Memory.write_wf b (by omega) hw)⟩
      · simpa using ⟨⟨lo, hi⟩, fun x y hxy => h1 (x, y) hxy⟩
      · intro c hc
        rw [h3 c fun p hp => hc p (by simp [hp])]
        exact Memory.read_write_other _ b (Ne.symm (hc (a, b) (by simp)))

/-- Stores at writable addresses go through. -/
theorem storeAll_ok {l : List (Nat × Byte)} (h : ∀ p ∈ l, 0x200 ≤ p.1 ∧ p.1 ≤ 0xFFF) (s : State) :
    ∃ t, storeAll l s = .ok t := by
  induction l generalizing s with
  | nil => exact ⟨s, rfl⟩
  | cons p l ih =>
    obtain ⟨a, b⟩ := p
    have hp := h (a, b) (by simp)
    simp only [storeAll, memWrite_ok hp.1 hp.2]
    exact ih (fun q hq => h q (by simp [hq])) _

/-- Stores at addresses that are all different leave each named byte at its address. -/
theorem storeAll_read {l : List (Nat × Byte)} {s t : State} (h : storeAll l s = .ok t)
    (hn : (l.map Prod.fst).Nodup) : ∀ p ∈ l, t.mem.read p.1 = p.2 := by
  induction l generalizing s with
  | nil => simp
  | cons p l ih =>
    obtain ⟨a, b⟩ := p
    simp only [storeAll] at h
    split at h
    · cases h
    · next u hu =>
      obtain ⟨lo, hi, rfl⟩ := memWrite_eq_ok hu
      rw [List.map_cons, List.nodup_cons] at hn
      intro q hq
      rcases List.mem_cons.mp hq with rfl | hq
      · rw [(storeAll_eq_ok h).2.2.1 a fun p hp e => hn.1 (List.mem_map.mpr ⟨p, hp, e⟩)]
        simp
      · exact ih h hn.2 q hq

/-- A list of stores raises at its first address that may not be written. -/
theorem storeAll_eq_error {l : List (Nat × Byte)} {s : State} {e : Raise} (h : storeAll l s = .error e) :
    ∃ p ∈ l, (0xFFF < p.1 ∧ e = (.memoryFault, p.1)) ∨ (p.1 < 0x200 ∧ e = (.reservedWriteFault, p.1)) := by
  induction l generalizing s with
  | nil => cases h
  | cons p l ih =>
    obtain ⟨a, b⟩ := p
    simp only [storeAll] at h
    split at h
    · next e' he => cases h; exact ⟨(a, b), by simp, memWrite_eq_error he⟩
    · obtain ⟨q, hq, hr⟩ := ih h
      exact ⟨q, by simp [hq], hr⟩

/-- The first pair that may not be written decides the raise. -/
theorem storeAll_first_error {l₁ l₂ : List (Nat × Byte)} {a : Nat} {b : Byte}
    (h : ∀ p ∈ l₁, 0x200 ≤ p.1 ∧ p.1 ≤ 0xFFF) (s : State) (ha : ¬(0x200 ≤ a ∧ a ≤ 0xFFF)) :
    storeAll (l₁ ++ (a, b) :: l₂) s =
      .error (if 0xFFF < a then (.memoryFault, a) else (.reservedWriteFault, a)) := by
  induction l₁ generalizing s with
  | nil =>
    by_cases hi : 0xFFF < a
    · simp [storeAll, memWrite, hi]
    · have lo : a < 0x200 := by omega
      simp [storeAll, memWrite, hi, lo]
  | cons p l ih =>
    obtain ⟨c, d⟩ := p
    have hp := h (c, d) (by simp)
    simp only [List.cons_append, storeAll, memWrite_ok hp.1 hp.2]
    exact ih (fun q hq => h q (by simp [hq])) _

end Sys2Proof.Machine
end

