-- ==== Sys2Proof/Laws/Ops.lean ====
section
/-! SUPPORT. For each shared operation, once, everything it can do. -/

namespace Sys2Proof.Machine

/-! ### A handler's end -/

@[simp] theorem conclude_ok (s t : State) : conclude s (.ok t) = .next t := rfl

@[simp] theorem conclude_error (s : State) (e : Raise) : conclude s (.error e) = .next (raiseFault s e) := rfl

/-- A handler that may raise ends in its own state or in the recorded fault. -/
theorem conclude_cases {s t : State} {r : Except Raise State} (h : conclude s r = .next t) :
    r = .ok t ∨ ∃ e, r = .error e ∧ t = raiseFault s e := by
  cases r with
  | ok u => cases h; exact .inl rfl
  | error e => cases h; exact .inr ⟨e, rfl, rfl⟩

/-! ### Stack -/

theorem pushPc_full {s : State} (h : s.sp.val = 16) : pushPc s = .error (.stackOverflow, 16) := by
  simp [pushPc, h]

/-- A push: the slot at `SP` takes `PC`, `SP` grows by one, every other slot and field stays. -/
theorem pushPc_eq_ok {s t : State} (h : pushPc s = .ok t) :
    s.sp.val < 16 ∧ t.sp.val = s.sp.val + 1 ∧
      (∀ k : Fin 16, slotAt t k = if k.val = s.sp.val then s.pc else slotAt s k) ∧
      t = { s with stack := t.stack, sp := t.sp } := by
  unfold pushPc at h
  split at h
  · cases h
  · next hn =>
    cases h
    refine ⟨by omega, rfl, fun k => ?_, rfl⟩
    by_cases hk : k.val = s.sp.val
    · simp [slotAt, hk]
    · simp [slotAt, hk, Ne.symm hk]

theorem pushPc_ok {s : State} (h : s.sp.val < 16) : ∃ t, pushPc s = .ok t := by
  unfold pushPc
  split
  · omega
  · exact ⟨_, rfl⟩

theorem pushPc_eq_error {s : State} {e : Raise} (h : pushPc s = .error e) :
    s.sp.val = 16 ∧ e = (.stackOverflow, 16) := by
  unfold pushPc at h
  split at h
  · next hn => cases h; exact ⟨hn, rfl⟩
  · cases h

theorem popPc_empty {s : State} (h : s.sp.val = 0) : popPc s = .error (.stackUnderflow, 0) := by
  simp [popPc, h]

/-- A pop: `SP` shrinks by one, `PC` takes the slot below it, every slot and other field stays. -/
theorem popPc_eq_ok {s t : State} (h : popPc s = .ok t) :
    0 < s.sp.val ∧ t.sp.val = s.sp.val - 1 ∧
      (∀ k : Fin 16, k.val = s.sp.val - 1 → t.pc = slotAt s k) ∧
      t = { s with sp := t.sp, pc := t.pc } := by
  unfold popPc at h
  split at h
  · cases h
  · next hn =>
    cases h
    refine ⟨by omega, rfl, fun k hk => ?_, rfl⟩
    simp [slotAt, hk]

theorem popPc_ok {s : State} (h : 0 < s.sp.val) : ∃ t, popPc s = .ok t := by
  unfold popPc
  split
  · omega
  · exact ⟨_, rfl⟩

theorem popPc_eq_error {s : State} {e : Raise} (h : popPc s = .error e) :
    s.sp.val = 0 ∧ e = (.stackUnderflow, 0) := by
  unfold popPc at h
  split at h
  · next hn => cases h; exact ⟨hn, rfl⟩
  · cases h

/-! ### Keypad -/

theorem readKey_ok {s : State} {b : Byte} (k : Reg) (h : b.toNat = k.val) : readKey s b = .ok (keyAt s k) := by
  have hk : ¬15 < k.val := by omega
  simp [readKey, keyAt, h, hk]

theorem readKey_fault {s : State} {b : Byte} (h : 15 < b.toNat) : readKey s b = .error (.keyIndexFault, b.toNat) := by
  simp [readKey, h]

theorem mem_allKeys (k : Reg) : k ∈ allKeys := by
  revert k; decide

/-- The scan finds a pressed key below which none is pressed. -/
theorem firstPressed_some {s : State} {k : Reg} (h : firstPressed s = some k) :
    keyAt s k = true ∧ ∀ j : Reg, j < k → keyAt s j = false := by
  obtain ⟨hk, as, bs, he, hn⟩ := List.find?_eq_some_iff_append.mp h
  refine ⟨hk, fun j hj => ?_⟩
  have hs : allKeys.Pairwise (· < ·) := by decide
  have hm : j ∈ as ++ k :: bs := he ▸ mem_allKeys j
  rw [he, List.pairwise_append] at hs
  rcases List.mem_append.mp hm with hm | hm
  · simpa using hn j hm
  · rcases List.mem_cons.mp hm with rfl | hm
    · exact absurd hj (lt_irrefl _)
    · exact absurd hj (not_lt.mpr (le_of_lt ((List.pairwise_cons.mp hs.2.1).1 j hm)))

/-- The scan finds nothing exactly when no key is pressed. -/
theorem firstPressed_none {s : State} : firstPressed s = none ↔ ∀ j : Reg, keyAt s j = false := by
  unfold firstPressed
  rw [List.find?_eq_none]
  exact ⟨fun h j => by simpa using h j (mem_allKeys j), fun h j _ => by simp [h j]⟩

/-! ### Register ranges -/

theorem mem_regsThrough {x r : Reg} : r ∈ regsThrough x ↔ r.val ≤ x.val := by
  simp [regsThrough, mem_allKeys]

theorem regsThrough_nodup (x : Reg) : (regsThrough x).Nodup :=
  List.Nodup.filter _ (by decide)

/-! ### Loading registers -/

/-- What a list of register loads does when it goes through: every address is readable, each listed register takes its
byte, and nothing else changes. -/
theorem loadRegs_eq_ok {base : Nat} {l : List Reg} {s t : State} (h : loadRegs base l s = .ok t) :
    (∀ r ∈ l, base + r.val ≤ 0xFFF) ∧ t = { s with v := t.v } ∧
      ∀ r, readV t r = if r ∈ l then s.mem.read (base + r.val) else readV s r := by
  induction l generalizing s with
  | nil => cases h; simp
  | cons q l ih =>
    simp only [loadRegs] at h
    split at h
    · cases h
    · next b hb =>
      obtain ⟨hq, rfl⟩ := memRead_eq_ok hb
      obtain ⟨h1, h2, h3⟩ := ih h
      refine ⟨?_, h2, fun r => ?_⟩
      · simpa using ⟨hq, h1⟩
      · rw [h3 r]
        by_cases hr : r ∈ l
        · simp [hr]
        · by_cases hrq : r = q
          · subst hrq; simp [hr]
          · simp [hr, hrq, readV_writeV_other _ _ hrq]

theorem loadRegs_ok {base : Nat} {l : List Reg} (h : ∀ r ∈ l, base + r.val ≤ 0xFFF) (s : State) :
    ∃ t, loadRegs base l s = .ok t := by
  induction l generalizing s with
  | nil => exact ⟨s, rfl⟩
  | cons q l ih =>
    simp only [loadRegs, memRead_ok (h q (by simp))]
    exact ih (fun r hr => h r (by simp [hr])) _

theorem loadRegs_eq_error {base : Nat} {l : List Reg} {s : State} {e : Raise} (h : loadRegs base l s = .error e) :
    ∃ r ∈ l, 0xFFF < base + r.val ∧ e = (.memoryFault, base + r.val) := by
  induction l generalizing s with
  | nil => cases h
  | cons q l ih =>
    simp only [loadRegs] at h
    split at h
    · next e' he => cases h; exact ⟨q, by simp, memRead_eq_error he⟩
    · obtain ⟨r, hr, hx⟩ := ih h
      exact ⟨r, by simp [hr], hx⟩

/-- The first register whose address is above 0xFFF decides the raise. -/
theorem loadRegs_first_error {base : Nat} {l₁ l₂ : List Reg} {r : Reg} (h : ∀ q ∈ l₁, base + q.val ≤ 0xFFF) (s : State)
    (hr : 0xFFF < base + r.val) : loadRegs base (l₁ ++ r :: l₂) s = .error (.memoryFault, base + r.val) := by
  induction l₁ generalizing s with
  | nil => simp [loadRegs, memRead_fault hr]
  | cons q l ih =>
    simp only [List.cons_append, loadRegs, memRead_ok (h q (by simp))]
    exact ih (fun p hp => h p (by simp [hp])) _

/-! ### The cycle around the handler -/

theorem fetchWord_ok {s : State} (h : s.pc.toNat + 1 ≤ 0xFFF) :
    fetchWord s = .ok (wordOfBytes (s.mem.read s.pc.toNat) (s.mem.read (s.pc.toNat + 1))) := by
  simp only [fetchWord, gt_iff_lt, Nat.not_lt.mpr h, if_false]

theorem fetchWord_fault {s : State} (h : 0xFFF < s.pc.toNat + 1) : fetchWord s = .error (.fetchFault, s.pc.toNat) := by
  simp only [fetchWord, gt_iff_lt, h, if_true]

theorem endCycle_none {s t : State} (h : t.fault = none) : endCycle s t = { tick t with stepped := true } := by
  simp [endCycle, h]

theorem endCycle_some {s t : State} {f : FaultRecord} (h : t.fault = some f) : endCycle s t = abandonCycle s t := by
  simp [endCycle, h]

end Sys2Proof.Machine
end

