-- ==== Sys2Proof/Laws/Draw.lean ====
section
/-! SUPPORT. Drawing a sprite, pixel by pixel, row by row (`44_display.md` R181 to R183). -/

namespace Sys2Proof.Machine

/-- What drawing may change: the cells and VF, and nothing else. -/
def DrawFrame (s t : State) : Prop :=
  t = { s with v := t.v, fb := t.fb } ∧ ∀ r : Reg, r ≠ flagReg → readV t r = readV s r

theorem DrawFrame.refl (s : State) : DrawFrame s s := ⟨rfl, fun _ _ => rfl⟩

theorem DrawFrame.trans {s t u : State} (h₁ : DrawFrame s t) (h₂ : DrawFrame t u) : DrawFrame s u := by
  obtain ⟨e₁, r₁⟩ := h₁
  obtain ⟨e₂, r₂⟩ := h₂
  refine ⟨?_, fun r hr => (r₂ r hr).trans (r₁ r hr)⟩
  rw [e₁] at e₂
  exact e₂

theorem noteCollision_flag (s : State) (k : Fin 2048) :
    readV (noteCollision s k) flagReg = if readCell s k then 1 else readV s flagReg := by
  unfold noteCollision
  split <;> simp

theorem noteCollision_other (s : State) (k : Fin 2048) {r : Reg} (h : r ≠ flagReg) :
    readV (noteCollision s k) r = readV s r := by
  unfold noteCollision
  split
  · simp [readV_setFlag, h]
  · rfl

/-- One pixel: its cell is toggled, VF takes 1 when the cell was on. -/
theorem drawPixel_eq_ok {k : Nat} {s t : State} (h : drawPixel k s = .ok t) :
    k < 2048 ∧ DrawFrame s t ∧ (∀ j : Fin 2048, readCell t j = (readCell s j ^^ decide (j.val = k))) ∧
      readV t flagReg = if ∃ j : Fin 2048, j.val = k ∧ readCell s j = true then 1 else readV s flagReg := by
  unfold drawPixel at h
  split at h
  · next hk =>
    cases h
    refine ⟨hk, ⟨?_, fun r hr => ?_⟩, fun j => ?_, ?_⟩
    · unfold noteCollision; split <;> rfl
    · exact noteCollision_other s _ hr
    · rw [toggleCell_cell, readCell_congr (noteCollision_fb s _), readCell_congr (noteCollision_fb s _)]
      by_cases hj : j.val = k
      · have : j = ⟨k, hk⟩ := Fin.ext hj
        subst this
        simp
      · have : j ≠ ⟨k, hk⟩ := fun e => hj (congrArg Fin.val e)
        simp [hj, this]
    · have : (∃ j : Fin 2048, j.val = k ∧ readCell s j = true) ↔ readCell s ⟨k, hk⟩ = true :=
        ⟨fun ⟨j, hj, hs⟩ => by have : j = ⟨k, hk⟩ := Fin.ext hj
                               exact this ▸ hs, fun hs => ⟨_, rfl, hs⟩⟩
      simp only [this]
      exact noteCollision_flag s ⟨k, hk⟩
  · cases h

theorem drawPixel_ok {k : Nat} (h : k < 2048) (s : State) : ∃ t, drawPixel k s = .ok t := by
  simp [drawPixel, h]

theorem drawPixel_fault {k : Nat} (h : 2048 ≤ k) (s : State) : drawPixel k s = .error (.framebufferFault, k) := by
  simp [drawPixel, Nat.not_lt.mpr h]

/-! ### One row -/

/-- The cells one row's columns toggle. -/
def rowHits (b : Byte) (xPos yPos row : Nat) (cols : List Nat) (k : Nat) : Prop :=
  ∃ col ∈ cols, spriteBit b col = true ∧ spriteCell xPos yPos row col = k

/-- The columns of a row that all map into the array are drawn. -/
theorem drawColumns_ok {b : Byte} {xPos yPos row : Nat} {cols : List Nat}
    (h : ∀ col ∈ cols, spriteBit b col = true → spriteCell xPos yPos row col < 2048) (s : State) :
    ∃ t, drawColumns b xPos yPos row cols s = .ok t := by
  induction cols generalizing s with
  | nil => exact ⟨s, rfl⟩
  | cons c cols ih =>
    have ih' := ih fun col hc => h col (by simp [hc])
    unfold drawColumns
    split
    · next hb =>
      obtain ⟨t, ht⟩ := drawPixel_ok (h c (by simp) hb) s
      simp only [ht]
      exact ih' t
    · exact ih' s

/-- A row drawn, for columns that all are different and below 64: each hit cell is toggled once, VF takes 1 exactly when one of
them was on. -/
theorem drawColumns_eq_ok {b : Byte} {xPos yPos row : Nat} {cols : List Nat} {s t : State} (hn : cols.Nodup)
    (h : drawColumns b xPos yPos row cols s = .ok t) :
    (∀ col ∈ cols, spriteBit b col = true → spriteCell xPos yPos row col < 2048) ∧ DrawFrame s t ∧
      (∀ j : Fin 2048, (readCell t j ≠ readCell s j ↔ rowHits b xPos yPos row cols j.val)) ∧
      ((∃ j : Fin 2048, rowHits b xPos yPos row cols j.val ∧ readCell s j = true) → readV t flagReg = 1) ∧
      ((¬∃ j : Fin 2048, rowHits b xPos yPos row cols j.val ∧ readCell s j = true) →
        readV t flagReg = readV s flagReg) := by
  induction cols generalizing s with
  | nil =>
    cases h
    exact ⟨by simp, DrawFrame.refl _, by simp [rowHits], by simp [rowHits], by simp⟩
  | cons c cols ih =>
    rw [List.nodup_cons] at hn
    unfold drawColumns at h
    split at h
    · next hb =>
      split at h
      · cases h
      · next u hu =>
        obtain ⟨hc, hf, hcell, hflag⟩ := drawPixel_eq_ok hu
        obtain ⟨i1, i2, i3, i4, i5⟩ := ih hn.2 h
        have hnot : ∀ j : Fin 2048, j.val = spriteCell xPos yPos row c → ¬rowHits b xPos yPos row cols j.val := by
          rintro j hj ⟨col, hcol, -, he⟩
          have : col = c := by rw [hj] at he; simp only [spriteCell] at he; omega
          exact hn.1 (this ▸ hcol)
        have hhit : ∀ j : Fin 2048, rowHits b xPos yPos row (c :: cols) j.val ↔
            j.val = spriteCell xPos yPos row c ∨ rowHits b xPos yPos row cols j.val := by
          intro j
          simp only [rowHits, List.mem_cons, exists_eq_or_imp, hb, true_and]
          exact or_congr_left eq_comm
        have hu_cell : ∀ j : Fin 2048, rowHits b xPos yPos row cols j.val → readCell u j = readCell s j := by
          intro j hj
          have : j.val ≠ spriteCell xPos yPos row c := fun e => hnot j e hj
          rw [hcell j, decide_eq_false this, Bool.xor_false]
        refine ⟨?_, hf.trans i2, fun j => ?_, ?_, ?_⟩
        · intro col hcol hbit
          rcases List.mem_cons.mp hcol with rfl | hcol
          · exact hc
          · exact i1 col hcol hbit
        · rw [hhit j]
          by_cases hj : j.val = spriteCell xPos yPos row c
          · have h1 : readCell t j = readCell u j := by
              by_contra hne; exact hnot j hj ((i3 j).mp hne)
            have h2 : readCell u j = !readCell s j := by simp [hcell j, hj]
            simp [h1, h2, hj]
          · have h2 : readCell u j = readCell s j := by simp [hcell j, hj]
            rw [← h2, i3 j]
            simp [hj]
        · rintro ⟨j, hj, hs⟩
          by_cases hex : ∃ j : Fin 2048, rowHits b xPos yPos row cols j.val ∧ readCell u j = true
          · exact i4 hex
          · rw [i5 hex, hflag]
            rcases (hhit j).mp hj with hj | hj
            · simp only [ite_eq_left_iff]
              intro hne; exact absurd ⟨j, hj, hs⟩ hne
            · exact absurd ⟨j, hj, (hu_cell j hj).trans hs⟩ hex
        · intro hne
          have h1 : ¬∃ j : Fin 2048, rowHits b xPos yPos row cols j.val ∧ readCell u j = true := by
            rintro ⟨j, hj, hs⟩
            exact hne ⟨j, (hhit j).mpr (.inr hj), (hu_cell j hj).symm.trans hs⟩
          have h2 : ¬∃ j : Fin 2048, j.val = spriteCell xPos yPos row c ∧ readCell s j = true := by
            rintro ⟨j, hj, hs⟩
            exact hne ⟨j, (hhit j).mpr (.inl hj), hs⟩
          rw [i5 h1, hflag, if_neg h2]
    · next hb =>
      obtain ⟨i1, i2, i3, i4, i5⟩ := ih hn.2 h
      have hhit : ∀ k, rowHits b xPos yPos row (c :: cols) k ↔ rowHits b xPos yPos row cols k := by
        intro k
        simp [rowHits, hb]
      refine ⟨?_, i2, fun j => (i3 j).trans (hhit _).symm, ?_, ?_⟩
      · intro col hcol hbit
        rcases List.mem_cons.mp hcol with rfl | hcol
        · exact absurd hbit hb
        · exact i1 col hcol hbit
      · simpa only [hhit] using i4
      · simpa only [hhit] using i5

/-- A row's only raise is at its first set bit outside the array. -/
theorem drawColumns_eq_error {b : Byte} {xPos yPos row : Nat} {cols : List Nat} {s : State} {e : Raise}
    (h : drawColumns b xPos yPos row cols s = .error e) :
    ∃ col ∈ cols, spriteBit b col = true ∧ 2048 ≤ spriteCell xPos yPos row col ∧
      e = (.framebufferFault, spriteCell xPos yPos row col) := by
  induction cols generalizing s with
  | nil => cases h
  | cons c cols ih =>
    unfold drawColumns at h
    split at h
    · next hb =>
      split at h
      · next e' he =>
        cases h
        by_cases hk : spriteCell xPos yPos row c < 2048
        · obtain ⟨t, ht⟩ := drawPixel_ok hk s
          rw [ht] at he; cases he
        · rw [drawPixel_fault (by omega)] at he
          cases he
          exact ⟨c, by simp, hb, by omega, rfl⟩
      · obtain ⟨col, hcol, hr⟩ := ih h
        exact ⟨col, by simp [hcol], hr⟩
    · obtain ⟨col, hcol, hr⟩ := ih h
      exact ⟨col, by simp [hcol], hr⟩

theorem drawColumns_first_error {b : Byte} {xPos yPos row : Nat} {l₁ l₂ : List Nat} {c : Nat}
    (h : ∀ col ∈ l₁, spriteBit b col = true → spriteCell xPos yPos row col < 2048) (s : State)
    (hb : spriteBit b c = true) (hc : 2048 ≤ spriteCell xPos yPos row c) :
    drawColumns b xPos yPos row (l₁ ++ c :: l₂) s = .error (.framebufferFault, spriteCell xPos yPos row c) := by
  induction l₁ generalizing s with
  | nil => simp [drawColumns, hb, drawPixel_fault hc]
  | cons d l ih =>
    have ih' := ih fun col hcol => h col (by simp [hcol])
    simp only [List.cons_append]
    unfold drawColumns
    split
    · next hd =>
      obtain ⟨t, ht⟩ := drawPixel_ok (h d (by simp) hd) s
      simp only [ht]
      exact ih' t
    · exact ih' s

/-! ### All rows -/

theorem spriteColumns_lt : ∀ c ∈ spriteColumns, c < 8 := by decide


/-- The cells a sprite's rows toggle: the set bits of the bytes at `I + row`. -/
def spriteHits (s : State) (xPos yPos : Nat) (rows : List Nat) (k : Nat) : Prop :=
  ∃ row ∈ rows, rowHits (s.mem.read (effAddr s row)) xPos yPos row spriteColumns k

theorem DrawFrame.effAddr {s t : State} (h : DrawFrame s t) (k : Nat) : effAddr t k = effAddr s k := by
  rw [h.1]; rfl

theorem DrawFrame.mem {s t : State} (h : DrawFrame s t) : t.mem = s.mem := by
  rw [h.1]

theorem DrawFrame.spriteHits {s t : State} (h : DrawFrame s t) (xPos yPos : Nat) (rows : List Nat) (k : Nat) :
    spriteHits t xPos yPos rows k ↔ spriteHits s xPos yPos rows k := by
  simp only [Machine.spriteHits, h.effAddr, h.mem]

theorem drawRows_ok {xPos yPos : Nat} {rows : List Nat} {s : State}
    (ha : ∀ row ∈ rows, effAddr s row ≤ 0xFFF)
    (hc : ∀ row ∈ rows, ∀ col ∈ spriteColumns, spriteBit (s.mem.read (effAddr s row)) col = true →
      spriteCell xPos yPos row col < 2048) : ∃ t, drawRows xPos yPos rows s = .ok t := by
  induction rows generalizing s with
  | nil => exact ⟨s, rfl⟩
  | cons r rows ih =>
    unfold drawRows
    simp only [memRead_ok (ha r (by simp))]
    obtain ⟨t, ht⟩ := drawColumns_ok (hc r (by simp)) s
    simp only [ht]
    have hf := (drawColumns_eq_ok (by decide) ht).2.1
    apply ih
    · intro row hrow; rw [hf.effAddr]; exact ha row (by simp [hrow])
    · intro row hrow; rw [hf.effAddr, hf.mem]; exact hc row (by simp [hrow])

/-- A sprite drawn, for rows that are all different: each hit cell is toggled once, and VF takes 1 exactly when one of
them was on. -/
theorem drawRows_eq_ok {xPos yPos : Nat} {rows : List Nat} {s t : State} (hn : rows.Nodup)
    (h : drawRows xPos yPos rows s = .ok t) :
    (∀ row ∈ rows, effAddr s row ≤ 0xFFF) ∧
      (∀ row ∈ rows, ∀ col ∈ spriteColumns, spriteBit (s.mem.read (effAddr s row)) col = true →
        spriteCell xPos yPos row col < 2048) ∧
      DrawFrame s t ∧
      (∀ j : Fin 2048, (readCell t j ≠ readCell s j ↔ spriteHits s xPos yPos rows j.val)) ∧
      ((∃ j : Fin 2048, spriteHits s xPos yPos rows j.val ∧ readCell s j = true) → readV t flagReg = 1) ∧
      ((¬∃ j : Fin 2048, spriteHits s xPos yPos rows j.val ∧ readCell s j = true) →
        readV t flagReg = readV s flagReg) := by
  induction rows generalizing s with
  | nil =>
    cases h
    exact ⟨by simp, by simp, DrawFrame.refl _, by simp [spriteHits], by simp [spriteHits], by simp⟩
  | cons r rows ih =>
    rw [List.nodup_cons] at hn
    unfold drawRows at h
    split at h
    · cases h
    · next b hb =>
      obtain ⟨hr, rfl⟩ := memRead_eq_ok hb
      split at h
      · cases h
      · next u hu =>
        obtain ⟨c1, c2, c3, c4, c5⟩ := drawColumns_eq_ok (by decide) hu
        obtain ⟨i1, i2, i3, i4, i5, i6⟩ := ih hn.2 h
        simp only [c2.effAddr, c2.mem] at i1 i2
        simp only [c2.spriteHits] at i4 i5 i6
        have hhit : ∀ k, spriteHits s xPos yPos (r :: rows) k ↔
            rowHits (s.mem.read (effAddr s r)) xPos yPos r spriteColumns k ∨ spriteHits s xPos yPos rows k := by
          intro k; simp [spriteHits]
        have hdis : ∀ k, rowHits (s.mem.read (effAddr s r)) xPos yPos r spriteColumns k →
            ¬spriteHits s xPos yPos rows k := by
          rintro k ⟨c, hc, -, he⟩ ⟨row, hrow, c', hc', -, he'⟩
          have hc8 : c < 8 := spriteColumns_lt c hc
          have hc8' : c' < 8 := spriteColumns_lt c' hc'
          have : row = r := by simp only [spriteCell] at he he'; omega
          exact hn.1 (this ▸ hrow)
        have hkeep : ∀ j : Fin 2048, spriteHits s xPos yPos rows j.val → readCell u j = readCell s j := by
          intro j hj
          by_contra hne
          exact hdis _ ((c3 j).mp hne) hj
        refine ⟨?_, ?_, c2.trans i3, fun j => ?_, ?_, ?_⟩
        · simpa using ⟨hr, i1⟩
        · intro row hrow
          rcases List.mem_cons.mp hrow with rfl | hrow
          · exact c1
          · exact i2 row hrow
        · rw [hhit]
          by_cases hj : rowHits (s.mem.read (effAddr s r)) xPos yPos r spriteColumns j.val
          · have h1 : readCell t j = readCell u j := by
              by_contra hne; exact hdis _ hj ((i4 j).mp hne)
            have h2 := (c3 j).mpr hj
            rw [h1]
            simp [h2, hj]
          · have h2 : readCell u j = readCell s j := by
              by_contra hne; exact hj ((c3 j).mp hne)
            rw [← h2, i4 j]
            simp [hj]
        · rintro ⟨j, hj, hs⟩
          by_cases hex : ∃ j : Fin 2048, spriteHits s xPos yPos rows j.val ∧ readCell u j = true
          · exact i5 hex
          · rw [i6 hex]
            rcases (hhit _).mp hj with hj | hj
            · exact c4 ⟨j, hj, hs⟩
            · exact absurd ⟨j, hj, (hkeep j hj).trans hs⟩ hex
        · intro hne
          have h1 : ¬∃ j : Fin 2048, spriteHits s xPos yPos rows j.val ∧ readCell u j = true := by
            rintro ⟨j, hj, hs⟩
            exact hne ⟨j, (hhit _).mpr (.inr hj), (hkeep j hj).symm.trans hs⟩
          have h2 : ¬∃ j : Fin 2048,
              rowHits (s.mem.read (effAddr s r)) xPos yPos r spriteColumns j.val ∧ readCell s j = true := by
            rintro ⟨j, hj, hs⟩
            exact hne ⟨j, (hhit _).mpr (.inl hj), hs⟩
          rw [i6 h1, c5 h2]

/-- What a draw raises: the address of a row above 0xFFF, or the cell of a set bit outside the array. -/
theorem drawRows_eq_error {xPos yPos : Nat} {rows : List Nat} {s : State} {e : Raise}
    (h : drawRows xPos yPos rows s = .error e) :
    ∃ row ∈ rows, (0xFFF < effAddr s row ∧ e = (.memoryFault, effAddr s row)) ∨
      ∃ col ∈ spriteColumns, spriteBit (s.mem.read (effAddr s row)) col = true ∧
        2048 ≤ spriteCell xPos yPos row col ∧ e = (.framebufferFault, spriteCell xPos yPos row col) := by
  induction rows generalizing s with
  | nil => cases h
  | cons r rows ih =>
    unfold drawRows at h
    split at h
    · next e' he => cases h; exact ⟨r, by simp, .inl (memRead_eq_error he)⟩
    · next b hb =>
      obtain ⟨-, rfl⟩ := memRead_eq_ok hb
      split at h
      · next e' he => cases h; exact ⟨r, by simp, .inr (drawColumns_eq_error he)⟩
      · next u hu =>
        have hf := (drawColumns_eq_ok (by decide) hu).2.1
        obtain ⟨row, hrow, hx⟩ := ih h
        simp only [hf.effAddr, hf.mem] at hx
        exact ⟨row, by simp [hrow], hx⟩

end Sys2Proof.Machine
end

