-- ==== Sys2Proof/Laws/Step.lean ====
section
/-! SUPPORT. Everything one Step can do, and runs of Steps (`30_encoding.md` R90, R92). -/

namespace Sys2Proof.Machine

/-- Every instruction answers a next state. -/
theorem exec_next (i : Instr) (s : State) : ∃ t, exec i s = .next t := by
  cases i <;> exact ⟨_, rfl⟩

/-- A Step in a halted core, a fetch fault, or one instruction's cycle. -/
theorem step_cases {s t : State} (h : step s = .next t) :
    (s.fault ≠ none ∧ t = s) ∨
    (s.fault = none ∧ 0xFFF < s.pc.toNat + 1 ∧ t = recordFault s (.fetchFault, s.pc.toNat) s.pc none) ∨
    (s.fault = none ∧ s.pc.toNat + 1 ≤ 0xFFF ∧ ∃ w u,
      w = wordOfBytes (s.mem.read s.pc.toNat) (s.mem.read (s.pc.toNat + 1)) ∧
      exec (decodeWord w) (latchAndAdvance s w) = .next u ∧ t = endCycle s u) := by
  unfold step at h
  split at h
  · next f hf => cases h; exact .inl ⟨by simp [hf], rfl⟩
  · next hf =>
    by_cases hp : 0xFFF < s.pc.toNat + 1
    · rw [fetchWord_fault hp] at h
      cases h
      exact .inr (.inl ⟨hf, hp, rfl⟩)
    · have hp : s.pc.toNat + 1 ≤ 0xFFF := by omega
      rw [fetchWord_ok hp] at h
      refine .inr (.inr ⟨hf, hp, ?_⟩)
      generalize hw : wordOfBytes (s.mem.read s.pc.toNat) (s.mem.read (s.pc.toNat + 1)) = w at h
      obtain ⟨u, hu⟩ := exec_next (decodeWord w) (latchAndAdvance s w)
      simp only [hu] at h
      cases h
      exact ⟨w, u, rfl, hu, rfl⟩

theorem step_halted {s : State} (h : s.fault ≠ none) : step s = .next s := by
  unfold step
  split
  · rfl
  · next hn => exact absurd hn h

theorem step_fetchFault {s : State} (hf : s.fault = none) (h : 0xFFF < s.pc.toNat + 1) :
    step s = .next (recordFault s (.fetchFault, s.pc.toNat) s.pc none) := by
  simp only [step, hf, fetchWord_fault h]

theorem step_of_exec {s u : State} {w : Word} (hf : s.fault = none) (hp : s.pc.toNat + 1 ≤ 0xFFF)
    (hw : w = wordOfBytes (s.mem.read s.pc.toNat) (s.mem.read (s.pc.toNat + 1)))
    (hu : exec (decodeWord w) (latchAndAdvance s w) = .next u) : step s = .next (endCycle s u) := by
  subst hw
  simp only [step, hf, fetchWord_ok hp, hu]

/-- Every Step answers a next state. -/
theorem step_next (s : State) : ∃ t, step s = .next t := by
  by_cases hf : s.fault = none
  · by_cases hp : 0xFFF < s.pc.toNat + 1
    · exact ⟨_, step_fetchFault hf hp⟩
    · obtain ⟨u, hu⟩ := exec_next _ _
      exact ⟨_, step_of_exec hf (by omega) rfl hu⟩
  · exact ⟨s, step_halted hf⟩

/-! ### Runs -/

theorem run_zero (s : State) : core.run 0 s = .next s := rfl

theorem run_succ {n : Nat} {s t : State} (h : step s = .next t) : core.run (n + 1) s = core.run n t := by
  have h' : core.step s = .next t := h
  simp only [Host.Core.run, h']

/-- A run of `n + 1` Steps is `n` Steps and one more. -/
theorem run_succ_last {n : Nat} {s t u : State} (h : core.run n s = .next t) (hs : step t = .next u) :
    core.run (n + 1) s = .next u := by
  induction n generalizing s with
  | zero => cases h; exact run_succ hs
  | succ n ih =>
    obtain ⟨v, hv⟩ := step_next s
    rw [run_succ hv] at h ⊢
    exact ih h

/-- A property that every Step carries over holds at the end of every run from a state that has it. -/
theorem run_induct {P : State → Prop} (hP : ∀ s t, P s → step s = .next t → P t) {n : Nat} {s t : State} (hs : P s)
    (h : core.run n s = .next t) : P t := by
  induction n generalizing s with
  | zero => cases h; exact hs
  | succ n ih =>
    obtain ⟨v, hv⟩ := step_next s
    rw [run_succ hv] at h
    exact ih (hP s v hs hv) h

end Sys2Proof.Machine
end

