-- ==== Sys2Proof/Laws/Exec.lean ====
section
/-! SUPPORT. What every instruction, every Step and a program load do to memory: the canonical form is kept, and the
reserved region is not written (`20_memory.md` R54; `70_reset_and_hazards.md` R263). -/

namespace Sys2Proof.Machine

/-- Memory `n` is canonical if `m` is, and reads as `m` below 0x200. -/
def MemKept (m n : Memory) : Prop := (∀ a, a < 0x200 → n.read a = m.read a) ∧ (m.wf → n.wf)

theorem MemKept.of_eq {m n : Memory} (h : n = m) : MemKept m n := h ▸ ⟨fun _ _ => rfl, id⟩

/-- A handler whose raise-free end leaves memory leaves it on every end. -/
theorem memKept_conclude {s t : State} {r : Except Raise State} (h : conclude s r = .next t)
    (hr : ∀ u, r = .ok u → u.mem = s.mem) : MemKept s.mem t.mem := by
  rcases conclude_cases h with h | ⟨e, -, rfl⟩
  · exact .of_eq (hr t h)
  · exact .of_eq rfl

/-- A storing handler keeps the canonical form and the reserved region, whether it stores or raises. -/
theorem memKept_stores {s t : State} {l : List (Nat × Byte)} (h : conclude s (storeAll l s) = .next t) :
    MemKept s.mem t.mem := by
  rcases conclude_cases h with h | ⟨e, -, rfl⟩
  · obtain ⟨h1, -, h3, h4⟩ := storeAll_eq_ok h
    exact ⟨fun a ha => h3 a fun p hp => by have := h1 p hp; omega, h4⟩
  · exact .of_eq rfl

theorem memKept_exec {i : Instr} {s t : State} (h : exec i s = .next t) : MemKept s.mem t.mem := by
  cases i
  case ldBVx x => exact memKept_stores h
  case ldMemVx x => exact memKept_stores h
  case ret g => exact memKept_conclude h fun u hu => by rw [(popPc_eq_ok hu).2.2.2]
  case ldVxMem x => exact memKept_conclude h fun u hu => by rw [(loadRegs_eq_ok hu).2.1]
  case drw x y n =>
    exact memKept_conclude h fun u hu => by rw [(drawRows_eq_ok List.nodup_range hu).2.2.1.mem]; rfl
  case call nnn =>
    refine memKept_conclude h fun u hu => ?_
    split at hu
    · cases hu
    · next v hv => cases hu; rw [(pushPc_eq_ok hv).2.2.2]; rfl
  case skp x g =>
    refine memKept_conclude h fun u hu => ?_
    split at hu <;> cases hu
    simp
  case sknp x g =>
    refine memKept_conclude h fun u hu => ?_
    split at hu <;> cases hu
    simp
  case ldVxK x =>
    simp only [exec, execLdVxK] at h
    cases h
    apply MemKept.of_eq
    split <;> rfl
  all_goals (cases h; apply MemKept.of_eq; first | rfl | simp)

theorem memKept_step {s t : State} (h : step s = .next t) : MemKept s.mem t.mem := by
  rcases step_cases h with ⟨-, rfl⟩ | ⟨-, -, rfl⟩ | ⟨-, -, w, u, -, hu, rfl⟩
  · exact .of_eq rfl
  · exact .of_eq rfl
  · have := memKept_exec hu
    cases hf : u.fault with
    | none => rw [endCycle_none hf]; exact this
    | some f => rw [endCycle_some hf]; exact .of_eq rfl

/-- Bytes put from an address on: each is there, every other byte and every other field stays. -/
theorem pokeBytes_spec {l : List Byte} {a : Nat} {s : State} :
    pokeBytes a l s = { s with mem := (pokeBytes a l s).mem } ∧
      (∀ c, ¬(a ≤ c ∧ c < a + l.length) → (pokeBytes a l s).mem.read c = s.mem.read c) ∧
      (∀ i (h : i < l.length), (pokeBytes a l s).mem.read (a + i) = l[i]) ∧
      (a + l.length ≤ 4096 → s.mem.wf → (pokeBytes a l s).mem.wf) := by
  induction l generalizing a s with
  | nil => exact ⟨rfl, fun _ _ => rfl, fun i h => absurd h (Nat.not_lt_zero i), fun _ h => h⟩
  | cons b l ih =>
    obtain ⟨h1, h2, h3, h4⟩ := @ih (a + 1) (pokeMem s a b)
    simp only [pokeBytes, List.length_cons]
    refine ⟨by rw [h1]; rfl, fun c hc => ?_, fun i h => ?_, fun hl hw => ?_⟩
    · rw [h2 c (by omega)]
      exact Memory.read_write_other _ _ (by omega)
    · cases i with
      | zero => rw [h2 _ (by omega)]; exact Memory.read_write_same _ _ _
      | succ i =>
        have := h3 i (by omega)
        rwa [show a + 1 + i = a + (i + 1) by omega] at this
    · exact h4 (by omega) (Memory.write_wf _ (by omega) hw)

end Sys2Proof.Machine
end

