-- ==== Sys2Proof/Laws/PerInstr.lean ====
section
/-! SUPPORT. Laws stated of every instruction as syntax, one lemma per constructor. -/

namespace Sys2Proof.Laws.DecodesBack

/-- The word of a well-formed instruction decodes to it. -/
def Statement (i : Instr) : Prop := i.wf = true → decodeWord (encode i) = i

theorem cls (ignored : BitVec 8) : Statement (.cls ignored) := fun _ => by
  simp [decodeWord, encode, decodeFamily0]

theorem ret (ignored : BitVec 8) : Statement (.ret ignored) := fun _ => by
  simp [decodeWord, encode, decodeFamily0]

theorem jp (nnn : Addr12) : Statement (.jp nnn) := fun _ => by
  simp [decodeWord, encode]

theorem call (nnn : Addr12) : Statement (.call nnn) := fun _ => by
  simp [decodeWord, encode]

theorem seImm (x : Reg) (kk : Byte) : Statement (.seImm x kk) := fun _ => by
  simp [decodeWord, encode]

theorem sneImm (x : Reg) (kk : Byte) : Statement (.sneImm x kk) := fun _ => by
  simp [decodeWord, encode]

theorem seReg (x y : Reg) (ignored : Nibble) : Statement (.seReg x y ignored) := fun _ => by
  simp [decodeWord, encode]

theorem ldImm (x : Reg) (kk : Byte) : Statement (.ldImm x kk) := fun _ => by
  simp [decodeWord, encode]

theorem addImm (x : Reg) (kk : Byte) : Statement (.addImm x kk) := fun _ => by
  simp [decodeWord, encode]

theorem ldReg (x y : Reg) : Statement (.ldReg x y) := fun _ => by
  simp [decodeWord, encode, decodeFamily8]

theorem orReg (x y : Reg) : Statement (.orReg x y) := fun _ => by
  simp [decodeWord, encode, decodeFamily8]

theorem andReg (x y : Reg) : Statement (.andReg x y) := fun _ => by
  simp [decodeWord, encode, decodeFamily8]

theorem xorReg (x y : Reg) : Statement (.xorReg x y) := fun _ => by
  simp [decodeWord, encode, decodeFamily8]

theorem addReg (x y : Reg) : Statement (.addReg x y) := fun _ => by
  simp [decodeWord, encode, decodeFamily8]

theorem sub (x y : Reg) : Statement (.sub x y) := fun _ => by
  simp [decodeWord, encode, decodeFamily8]

theorem shr (x : Reg) (ignored : Nibble) : Statement (.shr x ignored) := fun _ => by
  simp [decodeWord, encode, decodeFamily8]

theorem subn (x y : Reg) : Statement (.subn x y) := fun _ => by
  simp [decodeWord, encode, decodeFamily8]

theorem shl (x : Reg) (ignored : Nibble) : Statement (.shl x ignored) := fun _ => by
  simp [decodeWord, encode, decodeFamily8]

theorem sneReg (x y : Reg) (ignored : Nibble) : Statement (.sneReg x y ignored) := fun _ => by
  simp [decodeWord, encode]

theorem ldI (nnn : Addr12) : Statement (.ldI nnn) := fun _ => by
  simp [decodeWord, encode]

theorem jpV0 (nnn : Addr12) : Statement (.jpV0 nnn) := fun _ => by
  simp [decodeWord, encode]

theorem rnd (x : Reg) (kk : Byte) : Statement (.rnd x kk) := fun _ => by
  simp [decodeWord, encode]

theorem drw (x y n : Reg) : Statement (.drw x y n) := fun _ => by
  simp [decodeWord, encode]

theorem skp (x : Reg) (ignored : Nibble) : Statement (.skp x ignored) := fun _ => by
  simp [decodeWord, encode, decodeFamilyE]

theorem sknp (x : Reg) (ignored : Nibble) : Statement (.sknp x ignored) := fun _ => by
  simp [decodeWord, encode, decodeFamilyE]

theorem ldVxDt (x : Reg) : Statement (.ldVxDt x) := fun _ => by
  simp [decodeWord, encode, decodeFamilyF]

theorem ldVxK (x : Reg) : Statement (.ldVxK x) := fun _ => by
  simp [decodeWord, encode, decodeFamilyF]

theorem ldDtVx (x : Reg) : Statement (.ldDtVx x) := fun _ => by
  simp [decodeWord, encode, decodeFamilyF]

theorem ldStVx (x : Reg) : Statement (.ldStVx x) := fun _ => by
  simp [decodeWord, encode, decodeFamilyF]

theorem addIVx (x : Reg) : Statement (.addIVx x) := fun _ => by
  simp [decodeWord, encode, decodeFamilyF]

theorem ldFVx (x : Reg) : Statement (.ldFVx x) := fun _ => by
  simp [decodeWord, encode, decodeFamilyF]

theorem ldBVx (x : Reg) : Statement (.ldBVx x) := fun _ => by
  simp [decodeWord, encode, decodeFamilyF]

theorem ldMemVx (x : Reg) : Statement (.ldMemVx x) := fun _ => by
  simp [decodeWord, encode, decodeFamilyF]

theorem ldVxMem (x : Reg) : Statement (.ldVxMem x) := fun _ => by
  simp [decodeWord, encode, decodeFamilyF]

theorem nop0 (ignored : Addr12) : Statement (.nop0 ignored) := by
  intro h
  simp only [Instr.wf, hasKey0, List.mem_cons, List.not_mem_nil, or_false, Bool.not_eq_true', decide_eq_false_iff_not,
    not_or] at h
  simp only [decodeWord, encode, opField_formatNNN, decodeFamily0, nField_formatNNN, nnnField_formatNNN]
  split <;> simp_all

theorem nop8 (ignored : Addr12) : Statement (.nop8 ignored) := by
  intro h
  simp only [Instr.wf, hasKey8, List.mem_cons, List.not_mem_nil, or_false, Bool.not_eq_true', decide_eq_false_iff_not,
    not_or] at h
  simp only [decodeWord, encode, opField_formatNNN, decodeFamily8, nField_formatNNN, nnnField_formatNNN]
  split <;> simp_all

theorem nopE (ignored : Addr12) : Statement (.nopE ignored) := by
  intro h
  simp only [Instr.wf, hasKeyE, List.mem_cons, List.not_mem_nil, or_false, Bool.not_eq_true', decide_eq_false_iff_not,
    not_or] at h
  simp only [decodeWord, encode, opField_formatNNN, decodeFamilyE, nField_formatNNN, nnnField_formatNNN]
  split <;> simp_all

theorem nopF (ignored : Addr12) : Statement (.nopF ignored) := by
  intro h
  simp only [Instr.wf, hasKeyF, List.mem_cons, List.not_mem_nil, or_false, Bool.not_eq_true', decide_eq_false_iff_not,
    not_or] at h
  simp only [decodeWord, encode, opField_formatNNN, decodeFamilyF, kkField_formatNNN, nnnField_formatNNN]
  split <;> simp_all

end Sys2Proof.Laws.DecodesBack

namespace Sys2Proof.Laws.MatchesTableRow

/-- The match and the mask of an instruction's row in `spec/opcode_table.json`. -/
def row : Instr → Word × Word
  | .cls _ => (0x0000, 0xF00F)
  | .ret _ => (0x000E, 0xF00F)
  | .jp _ => (0x1000, 0xF000)
  | .call _ => (0x2000, 0xF000)
  | .seImm _ _ => (0x3000, 0xF000)
  | .sneImm _ _ => (0x4000, 0xF000)
  | .seReg _ _ _ => (0x5000, 0xF000)
  | .ldImm _ _ => (0x6000, 0xF000)
  | .addImm _ _ => (0x7000, 0xF000)
  | .ldReg _ _ => (0x8000, 0xF00F)
  | .orReg _ _ => (0x8001, 0xF00F)
  | .andReg _ _ => (0x8002, 0xF00F)
  | .xorReg _ _ => (0x8003, 0xF00F)
  | .addReg _ _ => (0x8004, 0xF00F)
  | .sub _ _ => (0x8005, 0xF00F)
  | .shr _ _ => (0x8006, 0xF00F)
  | .subn _ _ => (0x8007, 0xF00F)
  | .shl _ _ => (0x800E, 0xF00F)
  | .sneReg _ _ _ => (0x9000, 0xF000)
  | .ldI _ => (0xA000, 0xF000)
  | .jpV0 _ => (0xB000, 0xF000)
  | .rnd _ _ => (0xC000, 0xF000)
  | .drw _ _ _ => (0xD000, 0xF000)
  | .skp _ _ => (0xE00E, 0xF00F)
  | .sknp _ _ => (0xE001, 0xF00F)
  | .ldVxDt _ => (0xF007, 0xF0FF)
  | .ldVxK _ => (0xF00A, 0xF0FF)
  | .ldDtVx _ => (0xF015, 0xF0FF)
  | .ldStVx _ => (0xF018, 0xF0FF)
  | .addIVx _ => (0xF01E, 0xF0FF)
  | .ldFVx _ => (0xF029, 0xF0FF)
  | .ldBVx _ => (0xF033, 0xF0FF)
  | .ldMemVx _ => (0xF055, 0xF0FF)
  | .ldVxMem _ => (0xF065, 0xF0FF)
  | .nop0 _ => (0x0000, 0xF000)
  | .nop8 _ => (0x8000, 0xF000)
  | .nopE _ => (0xE000, 0xF000)
  | .nopF _ => (0xF000, 0xF000)

theorem and_ones (n : Nibble) : n &&& 0xF#4 = n := BitVec.and_allOnes

theorem and_ones_byte (b : Byte) : b &&& 0xFF#8 = b := BitVec.and_allOnes

theorem formatNNN_op (op : Nibble) (a : Addr12) : formatNNN op a &&& 0xF000 = op ++ 0#12 := by
  rw [formatNNN, show (0xF000 : Word) = 0xF#4 ++ 0#12 from rfl, BitVec.and_append, and_ones, BitVec.and_zero]

theorem formatXKK_op (op : Nibble) (x : Reg) (kk : Byte) : formatXKK op x kk &&& 0xF000 = op ++ 0#4 ++ 0#8 := by
  rw [formatXKK, show (0xF000 : Word) = 0xF#4 ++ 0#4 ++ 0#8 from rfl, BitVec.and_append, BitVec.and_append, and_ones,
    BitVec.and_zero, BitVec.and_zero]

theorem formatXKK_key (op : Nibble) (x : Reg) (kk : Byte) : formatXKK op x kk &&& 0xF0FF = op ++ 0#4 ++ kk := by
  rw [formatXKK, show (0xF0FF : Word) = 0xF#4 ++ 0#4 ++ 0xFF#8 from rfl, BitVec.and_append, BitVec.and_append, and_ones,
    and_ones_byte, BitVec.and_zero]

theorem formatXYN_op (op : Nibble) (x : Reg) (y n : Nibble) :
    formatXYN op x y n &&& 0xF000 = op ++ 0#4 ++ 0#4 ++ 0#4 := by
  rw [formatXYN, show (0xF000 : Word) = 0xF#4 ++ 0#4 ++ 0#4 ++ 0#4 from rfl, BitVec.and_append, BitVec.and_append,
    BitVec.and_append, and_ones, BitVec.and_zero, BitVec.and_zero, BitVec.and_zero]

theorem formatXYN_key (op : Nibble) (x : Reg) (y n : Nibble) :
    formatXYN op x y n &&& 0xF00F = op ++ 0#4 ++ 0#4 ++ n := by
  rw [formatXYN, show (0xF00F : Word) = 0xF#4 ++ 0#4 ++ 0#4 ++ 0xF#4 from rfl, BitVec.and_append, BitVec.and_append,
    BitVec.and_append, and_ones, and_ones, BitVec.and_zero, BitVec.and_zero]

theorem formatNOX_key (g : BitVec 8) (n : Nibble) : formatNOX g n &&& 0xF00F = 0#4 ++ 0#8 ++ n := by
  rw [formatNOX, show (0xF00F : Word) = 0xF#4 ++ 0#8 ++ 0xF#4 from rfl, BitVec.and_append, BitVec.and_append, and_ones,
    and_ones, BitVec.and_zero]
  rfl

/-- The word of an instruction has its row's fixed bits. -/
def Statement (i : Instr) : Prop := encode i &&& (row i).2 = (row i).1

theorem cls (ignored : BitVec 8) : Statement (.cls ignored) :=
  formatNOX_key ignored 0x0

theorem ret (ignored : BitVec 8) : Statement (.ret ignored) :=
  formatNOX_key ignored 0xE

theorem jp (nnn : Addr12) : Statement (.jp nnn) :=
  formatNNN_op 0x1 nnn

theorem call (nnn : Addr12) : Statement (.call nnn) :=
  formatNNN_op 0x2 nnn

theorem seImm (x : Reg) (kk : Byte) : Statement (.seImm x kk) :=
  formatXKK_op 0x3 x kk

theorem sneImm (x : Reg) (kk : Byte) : Statement (.sneImm x kk) :=
  formatXKK_op 0x4 x kk

theorem seReg (x y : Reg) (ignored : Nibble) : Statement (.seReg x y ignored) :=
  formatXYN_op 0x5 x (nibble y) ignored

theorem ldImm (x : Reg) (kk : Byte) : Statement (.ldImm x kk) :=
  formatXKK_op 0x6 x kk

theorem addImm (x : Reg) (kk : Byte) : Statement (.addImm x kk) :=
  formatXKK_op 0x7 x kk

theorem ldReg (x y : Reg) : Statement (.ldReg x y) :=
  formatXYN_key 0x8 x (nibble y) 0x0

theorem orReg (x y : Reg) : Statement (.orReg x y) :=
  formatXYN_key 0x8 x (nibble y) 0x1

theorem andReg (x y : Reg) : Statement (.andReg x y) :=
  formatXYN_key 0x8 x (nibble y) 0x2

theorem xorReg (x y : Reg) : Statement (.xorReg x y) :=
  formatXYN_key 0x8 x (nibble y) 0x3

theorem addReg (x y : Reg) : Statement (.addReg x y) :=
  formatXYN_key 0x8 x (nibble y) 0x4

theorem sub (x y : Reg) : Statement (.sub x y) :=
  formatXYN_key 0x8 x (nibble y) 0x5

theorem shr (x : Reg) (ignored : Nibble) : Statement (.shr x ignored) :=
  formatXYN_key 0x8 x ignored 0x6

theorem subn (x y : Reg) : Statement (.subn x y) :=
  formatXYN_key 0x8 x (nibble y) 0x7

theorem shl (x : Reg) (ignored : Nibble) : Statement (.shl x ignored) :=
  formatXYN_key 0x8 x ignored 0xE

theorem sneReg (x y : Reg) (ignored : Nibble) : Statement (.sneReg x y ignored) :=
  formatXYN_op 0x9 x (nibble y) ignored

theorem ldI (nnn : Addr12) : Statement (.ldI nnn) :=
  formatNNN_op 0xA nnn

theorem jpV0 (nnn : Addr12) : Statement (.jpV0 nnn) :=
  formatNNN_op 0xB nnn

theorem rnd (x : Reg) (kk : Byte) : Statement (.rnd x kk) :=
  formatXKK_op 0xC x kk

theorem drw (x y n : Reg) : Statement (.drw x y n) :=
  formatXYN_op 0xD x (nibble y) (nibble n)

theorem skp (x : Reg) (ignored : Nibble) : Statement (.skp x ignored) :=
  formatXYN_key 0xE x ignored 0xE

theorem sknp (x : Reg) (ignored : Nibble) : Statement (.sknp x ignored) :=
  formatXYN_key 0xE x ignored 0x1

theorem ldVxDt (x : Reg) : Statement (.ldVxDt x) :=
  formatXKK_key 0xF x 0x07

theorem ldVxK (x : Reg) : Statement (.ldVxK x) :=
  formatXKK_key 0xF x 0x0A

theorem ldDtVx (x : Reg) : Statement (.ldDtVx x) :=
  formatXKK_key 0xF x 0x15

theorem ldStVx (x : Reg) : Statement (.ldStVx x) :=
  formatXKK_key 0xF x 0x18

theorem addIVx (x : Reg) : Statement (.addIVx x) :=
  formatXKK_key 0xF x 0x1E

theorem ldFVx (x : Reg) : Statement (.ldFVx x) :=
  formatXKK_key 0xF x 0x29

theorem ldBVx (x : Reg) : Statement (.ldBVx x) :=
  formatXKK_key 0xF x 0x33

theorem ldMemVx (x : Reg) : Statement (.ldMemVx x) :=
  formatXKK_key 0xF x 0x55

theorem ldVxMem (x : Reg) : Statement (.ldVxMem x) :=
  formatXKK_key 0xF x 0x65

theorem nop0 (ignored : Addr12) : Statement (.nop0 ignored) :=
  formatNNN_op 0x0 ignored

theorem nop8 (ignored : Addr12) : Statement (.nop8 ignored) :=
  formatNNN_op 0x8 ignored

theorem nopE (ignored : Addr12) : Statement (.nopE ignored) :=
  formatNNN_op 0xE ignored

theorem nopF (ignored : Addr12) : Statement (.nopF ignored) :=
  formatNNN_op 0xF ignored

end Sys2Proof.Laws.MatchesTableRow
end

