-- ==== Sys2Proof/Tests/Slice0.lean ====
section
/-! SUPPORT. The model's own tests: ill-formed terms refused, words written out from `30_encoding.md` and decoded,
the vectors of `95_test_vectors.md` (named V1.1 and so on; L1 and P are its other tables), and a witness for the
hypotheses of every obligation that has some. -/

namespace Sys2Proof.Tests

open Machine

/-! ### WellFormed: each check refuses a term that is a word of another instruction -/

theorem test_wf_refuses_cls_as_nop0 : (Instr.nop0 0x0E0).wf = false := by decide
theorem test_wf_refuses_or_as_nop8 : (Instr.nop8 0x121).wf = false := by decide
theorem test_wf_refuses_sknp_as_nopE : (Instr.nopE 0x5A1).wf = false := by decide
theorem test_wf_refuses_load_as_nopF : (Instr.nopF 0x265).wf = false := by decide
theorem test_wf_accepts_misses :
    (Instr.nop0 0x123).wf ∧ (Instr.nop8 0x12F).wf ∧ (Instr.nopE 0x100).wf ∧ (Instr.nopF 0x1FF).wf := by decide

/-! ### Decoding: words written out from R74 to R79, high byte first (R55) -/

theorem test_decode_control :
    decode [0x01, 0x2E] = .ok (.ret 0x12, []) ∧ decode [0x12, 0x34] = .ok (.jp 0x234, []) ∧
    decode [0x2F, 0x01] = .ok (.call 0xF01, []) ∧ decode [0x3A, 0x7C] = .ok (.seImm 0xA 0x7C, []) ∧
    decode [0x4B, 0x01] = .ok (.sneImm 0xB 0x01, []) ∧ decode [0x5C, 0xD3] = .ok (.seReg 0xC 0xD 3, []) ∧
    decode [0x9E, 0x10] = .ok (.sneReg 0xE 1 0, []) ∧ decode [0xB3, 0x00] = .ok (.jpV0 0x300, []) :=
  ⟨rfl, rfl, rfl, rfl, rfl, rfl, rfl, rfl⟩

theorem test_decode_alu :
    decode [0x6A, 0x42] = .ok (.ldImm 0xA 0x42, []) ∧ decode [0x70, 0x03] = .ok (.addImm 0 3, []) ∧
    decode [0x81, 0x20] = .ok (.ldReg 1 2, []) ∧ decode [0x83, 0x41] = .ok (.orReg 3 4, []) ∧
    decode [0x85, 0x62] = .ok (.andReg 5 6, []) ∧ decode [0x87, 0x83] = .ok (.xorReg 7 8, []) ∧
    decode [0x89, 0xA4] = .ok (.addReg 9 0xA, []) ∧ decode [0x8B, 0xC5] = .ok (.sub 0xB 0xC, []) ∧
    decode [0x81, 0x76] = .ok (.shr 1 7, []) ∧ decode [0x8D, 0xE7] = .ok (.subn 0xD 0xE, []) ∧
    decode [0x8F, 0x0E] = .ok (.shl 0xF 0, []) ∧ decode [0xC3, 0x0F] = .ok (.rnd 3 0x0F, []) :=
  ⟨rfl, rfl, rfl, rfl, rfl, rfl, rfl, rfl, rfl, rfl, rfl, rfl⟩

theorem test_decode_index_display :
    decode [0xA2, 0x0E] = .ok (.ldI 0x20E, []) ∧ decode [0xF2, 0x1E] = .ok (.addIVx 2, []) ∧
    decode [0xF0, 0x29] = .ok (.ldFVx 0, []) ∧ decode [0xF7, 0x33] = .ok (.ldBVx 7, []) ∧
    decode [0xF1, 0x55] = .ok (.ldMemVx 1, []) ∧ decode [0xF2, 0x65] = .ok (.ldVxMem 2, []) ∧
    decode [0x00, 0xE0] = .ok (.cls 0x0E, []) ∧ decode [0xDF, 0x15] = .ok (.drw 0xF 1 5, []) :=
  ⟨rfl, rfl, rfl, rfl, rfl, rfl, rfl, rfl⟩

theorem test_decode_keypad_timers :
    decode [0xE5, 0xAE] = .ok (.skp 5 0xA, []) ∧ decode [0xE5, 0xA1] = .ok (.sknp 5 0xA, []) ∧
    decode [0xF3, 0x07] = .ok (.ldVxDt 3, []) ∧ decode [0xF1, 0x0A] = .ok (.ldVxK 1, []) ∧
    decode [0xF0, 0x15] = .ok (.ldDtVx 0, []) ∧ decode [0xF2, 0x18] = .ok (.ldStVx 2, []) :=
  ⟨rfl, rfl, rfl, rfl, rfl, rfl⟩

theorem test_decode_misses :
    decode [0x01, 0x23] = .ok (.nop0 0x123, []) ∧ decode [0x81, 0x28] = .ok (.nop8 0x128, []) ∧
    decode [0xE1, 0x00] = .ok (.nopE 0x100, []) ∧ decode [0xF1, 0x66] = .ok (.nopF 0x166, []) :=
  ⟨rfl, rfl, rfl, rfl⟩

theorem test_decode_needs_two_bytes : decode [0x12] = .error .truncated ∧ decode [] = .error .truncated := ⟨rfl, rfl⟩

/-- Zeroed memory is CLS (R75). -/
theorem test_table_word_zero : decodeTableWord 16 0 = some (.cls 0) := by decide

/-- R83's table: canonical words and text; `0x5121` is the example given there. -/
theorem test_assembler :
    assemble (.ret 0) = 0x00EE ∧ assemble (.seReg 1 2 7) = 0x5120 ∧ assemble (.sknp 5 0) = 0xE5A1 ∧
    disassemble (decodeWord 0x5121) = "SE V1, V2" ∧ disassemble (decodeWord 0xF165) = "LD V1, [I]" ∧
    disassemble (decodeWord 0x8129) = ".word 0x8129" := by decide

/-! ### One Step on a small state -/

/-- Reset with these registers. -/
def regs (l : List (Reg × Byte)) : State := l.foldl (fun s p => writeV s p.1 p.2) State.reset

/-- A word at `PC` (0x200 in every vector used here) and data after it. -/
def place (w : Word) (data : Memory) (s : State) : State :=
  { s with mem := (0x200, w.extractLsb' 8 8) :: (0x201, w.extractLsb' 0 8) :: data }

/-- The state one Step later. -/
def after (w : Word) (s : State) (data : Memory := []) : State :=
  match step (place w data s) with
  | .next t => t
  | _ => s

/-- Registers of a state, as named. -/
def see (l : List Reg) (s : State) : List Byte := l.map (readV s)

/-- Code, address and info of the fault record, as numbers. -/
def seeFault (s : State) : Option (Nat × Nat × Nat) :=
  s.fault.map fun f => (faultNumber (some f), f.pc.toNat, f.info)

/-- Keys held down. -/
def press (l : List Reg) (s : State) : State := l.foldl (fun s k => { s with key := s.key.set k.val true k.isLt }) s

/-- Cells on. -/
def light (l : List (Fin 2048)) (s : State) : State := l.foldl toggleCell s

/-! Control transfer. -/

theorem test_ret_V1_3 : (after 0x00EE { State.reset with sp := 16, stack := Vector.replicate 16 0x304 }).pc = 0x304 := by
  decide
theorem test_ret_fault_V1_2 : seeFault (after 0x00EE State.reset) = some (5, 0x200, 0) := by decide
theorem test_jp_V1_5 : (after 0x1FFF State.reset).pc = 0xFFF := by decide
theorem test_call_V1_6 :
    (after 0x2210 State.reset).pc = 0x210 ∧ slotAt (after 0x2210 State.reset) 0 = 0x202 := by decide
theorem test_call_fault_V1_7 : seeFault (after 0x2210 { State.reset with sp := 16 }) = some (4, 0x200, 16) := by decide
theorem test_seImm_V1_9_V1_10 :
    (after 0x3305 (regs [(3, 5)])).pc = 0x204 ∧ (after 0x3305 (regs [(3, 4)])).pc = 0x202 := by decide
theorem test_sneImm_V1_11_V1_12 :
    (after 0x4001 (regs [])).pc = 0x204 ∧ (after 0x4001 (regs [(0, 1)])).pc = 0x202 := by decide
theorem test_seReg_V1_14_V1_15 :
    (after 0x5121 (regs [(1, 7), (2, 7)])).pc = 0x204 ∧ (after 0x5120 (regs [(1, 7), (2, 8)])).pc = 0x202 := by decide
theorem test_sneReg_V1_16_V1_17 :
    (after 0x9120 (regs [(1, 7), (2, 8)])).pc = 0x204 ∧ (after 0x9110 (regs [(1, 7)])).pc = 0x202 := by decide
theorem test_jpV0_V1_19_V1_20 :
    (after 0xB300 (regs [(0, 0x10)])).pc = 0x310 ∧ (after 0xBFFF (regs [(0, 0xFF)])).pc = 0x10FE := by decide

/-! Arithmetic and logic. -/

theorem test_ldImm_V2_1 : see [0xA] (after 0x6A42 (regs [])) = [0x42] := by decide
theorem test_addImm_V2_3 : see [0, 0xF] (after 0x7003 (regs [(0, 0xFE), (0xF, 7)])) = [1, 7] := by decide
theorem test_ldReg_V2_5 : see [1, 2] (after 0x8120 (regs [(2, 0x11)])) = [0x11, 0x11] := by decide
theorem test_or_V2_6 : see [1, 0xF] (after 0x8121 (regs [(1, 0x0C), (2, 0x0A), (0xF, 5)])) = [0x0E, 5] := by decide
theorem test_and_V2_7 : see [1] (after 0x8122 (regs [(1, 0x0C), (2, 0x0A)])) = [8] := by decide
theorem test_xor_V2_8 : see [1] (after 0x8123 (regs [(1, 0x0C), (2, 0x0A)])) = [6] := by decide
theorem test_addReg_V2_10 : see [1, 0xF] (after 0x8124 (regs [(1, 250), (2, 10)])) = [4, 1] := by decide
theorem test_addReg_V2_14_V2_15 :
    see [0xF] (after 0x8F24 (regs [(0xF, 0x80), (2, 0x90)])) = [0x10] ∧
    see [1, 0xF] (after 0x81F4 (regs [(1, 0x10), (0xF, 0xF5)])) = [5, 1] := by decide
theorem test_sub_V2_17_V2_18 :
    see [1, 0xF] (after 0x8125 (regs [(1, 3), (2, 0x0A)])) = [0xF9, 0] ∧
    see [1, 0xF] (after 0x8125 (regs [(1, 5), (2, 5)])) = [0, 0] := by decide
theorem test_sub_V2_20_V2_21 :
    see [0xF] (after 0x8F25 (regs [(0xF, 0x0A), (2, 3)])) = [0xFE] ∧
    see [1, 0xF] (after 0x81F5 (regs [(1, 0x0A), (0xF, 3)])) = [9, 1] := by decide
theorem test_shr_V2_22_V2_25 :
    see [1, 0xF] (after 0x8106 (regs [(1, 0x93)])) = [0x49, 1] ∧ see [0xF] (after 0x8F06 (regs [(0xF, 0xFF)])) = [0] := by
  decide
theorem test_subn_V2_26_V2_28 :
    see [1, 0xF] (after 0x8127 (regs [(1, 3), (2, 0x0A)])) = [7, 1] ∧
    see [1, 0xF] (after 0x8127 (regs [(1, 5), (2, 5)])) = [0, 0] := by decide
theorem test_subn_V2_29_V2_30 :
    see [0xF] (after 0x8F27 (regs [(0xF, 3), (2, 0x0A)])) = [9] ∧
    see [1, 0xF] (after 0x81F7 (regs [(1, 3), (0xF, 0x0A)])) = [0xFE, 1] := by decide
theorem test_shl_V2_31_V2_34 :
    see [1, 0xF] (after 0x810E (regs [(1, 0x81)])) = [2, 1] ∧ see [0xF] (after 0x8F0E (regs [(0xF, 0x80)])) = [2] := by
  decide
/-- V2.38, and a draw is counted: the value drawn is free. -/
theorem test_rnd_V2_38 : readV (after 0xC300 (regs [(3, 9)])) 3 = 0 ∧ (after 0xC3FF (regs [])).draws = 1 :=
  ⟨BitVec.and_zero, rfl⟩

/-! Index and memory. -/

theorem test_ldI_V3_1 : (after 0xA300 State.reset).i = 0x300 := by decide
theorem test_addI_V3_3_V3_4 :
    (after 0xF21E { regs [(2, 1)] with i := 0xFFFF }).i = 0 ∧
    (after 0xF21E { regs [(2, 1)] with i := 0x0FFF }).i = 0x1000 := by decide
/-- V3.5, for whatever `GLYPH_BASE` is. -/
theorem test_ldF_V3_5 : (after 0xF029 (regs [(0, 0x0A)])).i = BitVec.ofNat 16 (Config.glyphBase + 50) := rfl
theorem test_bcd_V3_7_V3_9 :
    [0x300, 0x301, 0x302].map (after 0xF033 { regs [(0, 0x9C)] with i := 0x300 }).mem.read = [1, 5, 6] ∧
    [0x300, 0x301, 0x302].map (after 0xF033 { regs [(0, 0xFF)] with i := 0x300 }).mem.read = [2, 5, 5] := by decide
theorem test_bcd_fault_V3_10_V3_11 :
    seeFault (after 0xF033 { regs [(0, 7)] with i := 0x1FF }) = some (3, 0x200, 0x1FF) ∧
    seeFault (after 0xF033 { regs [(0, 7)] with i := 0xFFE }) = some (2, 0x200, 0x1000) := by decide
theorem test_dump_V3_12 :
    [0x300, 0x301, 0x302].map (after 0xF155 { regs [(0, 1), (1, 2), (2, 3)] with i := 0x300 }).mem.read = [1, 2, 0] := by
  decide
theorem test_dump_fault_V3_15 :
    seeFault (after 0xF155 { regs [(0, 1), (1, 2)] with i := 0xFFF }) = some (2, 0x200, 0x1000) ∧
    (after 0xF155 { regs [(0, 1), (1, 2)] with i := 0xFFF }).mem.read 0xFFF = 0 := by decide
theorem test_load_V3_16 :
    see [0, 1, 2, 3] (after 0xF265 { regs [(3, 0x33)] with i := 0x300 } [(0x300, 2), (0x301, 5), (0x302, 5)]) =
      [2, 5, 5, 0x33] := by decide
theorem test_load_fault_V3_18 :
    seeFault (after 0xF265 { State.reset with i := 0xFFE } [(0xFFE, 1), (0xFFF, 2)]) = some (2, 0x200, 0x1000) ∧
    see [0] (after 0xF265 { State.reset with i := 0xFFE } [(0xFFE, 1), (0xFFF, 2)]) = [0] := by decide

/-! Framebuffer. -/

theorem test_cls_V4_1 :
    [0, 100, 2047].map (readCell (after 0x00E0 (light [0, 100, 2047] State.reset))) = [false, false, false] := by
  decide +kernel
theorem test_drw_V4_4_V4_5 :
    ((after 0xD011 { light [1] State.reset with i := 0x300 } [(0x300, 0xC0)]).fb.toList.take 3,
      see [0xF] (after 0xD011 { light [1] State.reset with i := 0x300 } [(0x300, 0xC0)])) = ([true, false, false], [1]) ∧
    (after 0xD011 { regs [(0, 0x3E), (1, 1)] with i := 0x300 } [(0x300, 0xF0)]).fb.toList.findIdxs id =
      [126, 127, 128, 129] := by
  decide +kernel
theorem test_drw_fault_V4_8_V4_12 :
    seeFault (after 0xD011 { regs [(0, 0x3C), (1, 0x1F)] with i := 0x300 } [(0x300, 0x0F)]) = some (7, 0x200, 0x800) ∧
    seeFault (after 0xD012 { State.reset with i := 0xFFF } [(0xFFF, 0x80)]) = some (2, 0x200, 0x1000) := by
  decide +kernel

/-! Keypad and timers. -/

theorem test_skp_V5_1_V5_6 :
    (after 0xE59E (press [10] (regs [(5, 0x0A)]))).pc = 0x204 ∧
    seeFault (after 0xE59E (regs [(5, 0x10)])) = some (6, 0x200, 0x10) := by decide
theorem test_sknp_V5_4_V5_5 :
    (after 0xE5A1 (regs [(5, 0x0A)])).pc = 0x204 ∧ (after 0xE5A1 (press [10] (regs [(5, 0x0A)]))).pc = 0x202 := by decide
theorem test_ldVxK_V5_8 : see [1] (after 0xF10A (press [7, 3] State.reset)) = [3] := by decide
theorem test_ldVxK_V5_9 :
    (after 0xF10A { State.reset with dt := 4 }).pc = 0x200 ∧ (after 0xF10A { State.reset with dt := 4 }).dt = 3 := by
  decide
theorem test_ldVxDt_V5_11 :
    see [3] (after 0xF307 { State.reset with dt := 5 }) = [5] ∧ (after 0xF307 { State.reset with dt := 5 }).dt = 4 := by
  decide
theorem test_ldDt_V5_13_V5_14 :
    (after 0xF015 { regs [(0, 3)] with dt := 9 }).dt = 2 ∧ (after 0xF015 { regs [] with dt := 9 }).dt = 0 := by decide
theorem test_ldSt_V5_15_V5_16 :
    (after 0xF218 (regs [(2, 1)])).st = 0 ∧ (after 0xF218 (regs [(2, 0xFF)])).st = 254 := by decide

/-! Dispatch misses, the cycle, the load. -/

theorem test_nop0_V6_1 :
    (after 0x0123 { State.reset with dt := 5 }).pc = 0x202 ∧ (after 0x0123 { State.reset with dt := 5 }).dt = 4 := by decide
theorem test_nop8_V2_35 : see [1, 2, 0xF] (after 0x8128 (regs [(1, 1), (2, 2)])) = [1, 2, 0] := by decide
theorem test_nopE_V6_4 : (after 0xE100 State.reset).pc = 0x202 := by decide
theorem test_nopF_V6_5 : (after 0xF166 State.reset).pc = 0x202 := by decide
theorem test_fetch_fault_V6_8 :
    step { State.reset with pc := 0xFFF } =
      .next { State.reset with pc := 0xFFF, fault := some ⟨.fetchFault, 0xFFF, none, 0xFFF⟩ } := rfl
theorem test_odd_pc_V6_9 :
    step { State.reset with pc := 0x201, mem := [(0x201, 0x60), (0x202, 0x12)] } =
      .next { writeV State.reset 0 0x12 with
        pc := 0x203, opc := 0x6012, stepped := true, mem := [(0x201, 0x60), (0x202, 0x12)] } := rfl
theorem test_load_too_large_V7_3 : loadProgram (List.replicate 3585 0) State.reset = .refused .loadTooLarge := by
  rw [loadProgram, if_pos (by rw [List.length_replicate]; decide)]
/-- V7.5: a load after a Step is refused. -/
theorem test_second_load_V7_5 : loadProgram [0x60] (after 0x0123 State.reset) = .refused .loadNotAdmitted := rfl

/-- `withFetchWord` makes the next Step run the word. -/
theorem test_withFetchWord : step (State.reset.withFetchWord 16 0x6A42) =
    .next (endCycle (State.reset.withFetchWord 16 0x6A42)
      (writeV (latchAndAdvance (State.reset.withFetchWord 16 0x6A42) 0x6A42) 0xA 0x42)) := rfl

theorem test_reset_memory_wf : Memory.wf State.reset.mem := by decide
/-- Writing the byte an unlisted address reads as removes the entry. -/
theorem test_write_background : ((Memory.write [] 0x300 5).write 0x300 0) = [] := by decide

/-! ### Witnesses: a state and operands that meet the hypotheses of each obligation that has some -/

/-- A state whose next cycle runs a word at 0x200. -/
def ready (w : Word) (s : State := State.reset) : State := place w [] s

/-- A machine about to return from a subroutine, one frame active, memory in canonical form. -/
def inCall : State :=
  { State.reset with
    mem := [(0x201, 0xEE)], sp := 1, stack := Vector.replicate 16 0x206, loaded := true, stepped := true, i := 0x300 }

theorem inCall_inv : StateInv inCall where
  mem_wf := by decide
  reserved := fun a ha => by
    simp only [inCall, Memory.read]
    rw [if_neg (by omega)]
  pc_le := by decide
  frames := by decide
  fault_pc := fun f hf => by cases hf
  fault_opcode := fun f hf => by cases hf

theorem test_witness_ConstructionLeavesSpecifiedValues :
    ¬(Config.glyphBase ≤ 0x200 ∧ 0x200 < Config.glyphBase + 80) := by
  have := Config.glyphBaseIndex.isLt
  unfold Config.glyphBase
  omega

theorem test_witness_StepKeepsInvariant : ∃ s t, StateInv s ∧ step s = .next t := ⟨inCall, _, inCall_inv, rfl⟩

theorem test_witness_HostActionsKeepInvariant :
    ∃ s t, StateInv s ∧ runActions [.key 3 true, .step, .key 3 false, .step] s = .next t :=
  ⟨inCall, _, inCall_inv, rfl⟩

theorem test_witness_HostActionsKeepInvariant_load :
    ∃ t, runActions [.load [0x60, 0x05], .key 0xF true, .step] State.reset = .next t := ⟨_, rfl⟩

theorem test_witness_DeadSlotsAndLatchAreUnobservable :
    SameButDead inCall { inCall with opc := 0x1234, stack := inCall.stack.set 15 0x999 } := by
  refine ⟨rfl, ?_⟩
  decide

theorem test_witness_InstructionsWriteOnlyTheirParts_raise :
    ∃ t, exec (.ret 0x0E) State.reset = .next t ∧ t.fault ≠ none := ⟨_, rfl, by decide⟩

theorem test_witness_InstructionsWriteOnlyTheirParts :
    ∃ t, exec (.addReg 1 0xF) State.reset = .next t ∧ t.fault = none := ⟨_, rfl, rfl⟩

theorem test_witness_PcAfterCompletedCycle :
    ∃ t, Runs (.ret 0x0E) inCall ∧ step inCall = .next t ∧ t.fault = none ∧ t.pc = 0x206 :=
  ⟨_, ⟨rfl, by decide, rfl⟩, rfl, rfl, rfl⟩

theorem test_witness_PcAfterCompletedCycle_last :
    ∃ s t, Runs (.seImm 0 0) s ∧ s.pc = 0xFFE ∧ step s = .next t ∧ t.fault = none ∧ t.pc = 0x1002 :=
  ⟨{ State.reset with pc := 0xFFE, mem := [(0xFFE, 0x30)] }, _, ⟨rfl, by decide, rfl⟩, rfl, rfl, rfl, rfl⟩

/-- Each clause at the edge of its range. -/
theorem test_witness_MemoryPrimitivesCheckBounds :
    memWrite State.reset 0x1000 1 = .error (.memoryFault, 0x1000) ∧
    memRead State.reset 0xFFF = .ok 0 ∧ memWrite State.reset 0x1FF 1 = .error (.reservedWriteFault, 0x1FF) ∧
    memWrite State.reset 0x200 1 = .ok { State.reset with mem := [(0x200, 1)] } := ⟨rfl, rfl, rfl, rfl⟩

theorem test_witness_CanonicalMemoryIsDeterminedByItsBytes :
    ∃ m n : Memory, m.wf ∧ n.wf ∧ (∀ a, m.read a = n.read a) ∧ m ≠ [] :=
  ⟨[(0x300, 1), (0xFFF, 2)], [(0x300, 1), (0xFFF, 2)], by decide, by decide, fun _ => rfl, by decide⟩

/-- The byte dumped to 0x300 and 0x301 is the next fetch. -/
theorem test_witness_StoredBytesAreFetched :
    ∃ s t u : State, exec (.ldMemVx 1) s = .next t ∧ t.fault = none ∧ u.mem = t.mem ∧ u.pc.toNat = effAddr s 0 ∧
      (0 : Reg).val = 0 ∧ (1 : Reg).val = 0 + 1 ∧ (1 : Reg).val ≤ (1 : Reg).val :=
  ⟨{ regs [(0, 0x12), (1, 0x34)] with i := 0x300 }, _, { State.reset with pc := 0x300, mem := [(0x300, 0x12), (0x301, 0x34)] },
    rfl, rfl, by decide, rfl, rfl, rfl, by decide⟩

theorem test_witness_ReservedRegionNeverChanges : ∃ t, core.run 2 inCall = .next t ∧ (0x1FF : Nat) < 0x200 :=
  ⟨_, rfl, by decide⟩

theorem test_witness_DecodeInvertsEncode : (Instr.drw 0xF 1 5).wf = true ∧ (Instr.nop8 0x12F).wf = true := by decide

theorem test_witness_EveryWordIsOneInstruction : (Instr.shl 0xF 7).wf = true ∧ encode (.shl 0xF 7) = 0x8F7E := by decide

/-- A word of each of the four clauses, and none of a neighbour. -/
theorem test_witness_DispatchMissExactlyListedWords :
    missWord 0x0001 ∧ missWord 0x8FFF ∧ missWord 0xE10D ∧ missWord 0xFF66 ∧ ¬missWord 0x812E ∧ ¬missWord 0xF165 := by
  unfold missWord
  refine ⟨?_, ?_, ?_, ?_, ?_, ?_⟩ <;> decide

theorem test_witness_IgnoredBitsHaveNoEffect :
    ((0x0000#16).toNat / 4096 = 0x0 ∧ (0x0FF0#16).toNat / 4096 = 0x0 ∧ (0x0000#16).toNat % 16 ∈ [0x0, 0xE] ∧
      (0x0000#16).toNat % 16 = (0x0FF0#16).toNat % 16) ∧
    ((0xE59E#16).toNat / 4096 = 0xE ∧ (0xE59E#16).toNat / 256 = (0xE5AE#16).toNat / 256 ∧
      (0xE59E#16).toNat % 16 ∈ [0x1, 0xE] ∧ (0xE59E#16).toNat % 16 = (0xE5AE#16).toNat % 16) ∧
    ((0x8106#16).toNat / 4096 = 0x8 ∧ (0x8106#16).toNat / 256 = (0x81F6#16).toNat / 256 ∧
      (0x8106#16).toNat % 16 ∈ [0x6, 0xE] ∧ (0x8106#16).toNat % 16 = (0x81F6#16).toNat % 16) ∧
    ((0x9120#16).toNat / 4096 ∈ [0x5, 0x9] ∧ (0x9120#16).toNat / 16 = (0x912F#16).toNat / 16) := by decide

theorem test_witness_AssembledWordRunsAlike : (Instr.skp 5 0xA).wf = true := by decide

theorem test_witness_NopCycleOnlyAdvancesAndTicks :
    isMiss (.nop0 0x123) = true ∧ Runs (.nop0 0x123) (ready 0x0123 { State.reset with dt := 5 }) :=
  ⟨rfl, rfl, by decide, rfl⟩

theorem test_witness_StepRunsTheDecodedInstruction :
    ({ State.reset with fault := some ⟨.stackUnderflow, 0x200, some 0x00EE, 0⟩ } : State).fault ≠ none ∧
    (({ State.reset with pc := 0xFFF } : State).fault = none ∧
      ({ State.reset with pc := 0xFFF } : State).pc.toNat + 1 > 0xFFF) ∧
    Runs (.jp 0x234) (ready 0x1234) := ⟨by decide, ⟨rfl, by decide⟩, rfl, by decide, rfl⟩

/-- A run in which the instruction raises. -/
theorem test_witness_StepRunsTheDecodedInstruction_raise :
    ∃ t, exec (.skp 5 9) { ready 0xE59E (regs [(5, 0x10)]) with opc := 0xE59E, pc := 0x202 } = .next t ∧
      t.fault ≠ none := ⟨_, rfl, by decide⟩

theorem test_witness_FaultingCycleChangesOnlyTheRecord :
    ∃ s t f, s.fault = none ∧ step s = .next t ∧ t.fault = some f := ⟨ready 0x00EE, _, _, rfl, rfl, rfl⟩

theorem test_witness_HaltedCoreNeverChanges :
    ({ State.reset with fault := some ⟨.fetchFault, 0x1000, none, 0x1000⟩ } : State).fault ≠ none := by decide

theorem test_witness_FetchFaultExactlyPastMemory :
    (∃ s t, s.fault = none ∧ step s = .next t ∧ s.pc.toNat = 0xFFF) ∧
    ∃ s t, s.fault = none ∧ step s = .next t ∧ s.pc.toNat = 0xFFE :=
  ⟨⟨{ State.reset with pc := 0xFFF }, _, rfl, rfl, rfl⟩, ⟨{ State.reset with pc := 0xFFE }, _, rfl, rfl, rfl⟩⟩

theorem test_witness_MemoryFaultsOnlyFromDataAccesses :
    (∃ s t f, Runs (.ldVxMem 0) s ∧ step s = .next t ∧ t.fault = some f ∧ f.code = .memoryFault) ∧
    ∃ s t f, Runs (.ldMemVx 0) s ∧ step s = .next t ∧ t.fault = some f ∧ f.code = .reservedWriteFault :=
  ⟨⟨ready 0xF065 { State.reset with i := 0x1000 }, _, _, ⟨rfl, by decide, rfl⟩, rfl, rfl, rfl⟩,
    ⟨ready 0xF055 { State.reset with i := 0x1FF }, _, _, ⟨rfl, by decide, rfl⟩, rfl, rfl, rfl⟩⟩

/-- Each clause's fault arises, and a call at `SP = 15`, a return at `SP = 1` and a key 15 complete. -/
theorem test_witness_StackAndKeyFaultsExactly :
    (∃ t, Runs (.call 0x300) (ready 0x2300 { State.reset with sp := 16 }) ∧
      step (ready 0x2300 { State.reset with sp := 16 }) = .next t ∧ t.fault ≠ none) ∧
    (∃ t, Runs (.ret 0x0E) (ready 0x00EE) ∧ step (ready 0x00EE) = .next t ∧ t.fault ≠ none) ∧
    (∃ t, Runs (.sknp 5 0xA) (ready 0xE5A1 (regs [(5, 16)])) ∧ step (ready 0xE5A1 (regs [(5, 16)])) = .next t ∧
      t.fault ≠ none) ∧
    (∃ t, step (ready 0x2300 { State.reset with sp := 15 }) = .next t ∧ t.fault = none) ∧
    (∃ t, step (ready 0x00EE { State.reset with sp := 1 }) = .next t ∧ t.fault = none) ∧
    ∃ t, step (ready 0xE5A1 (regs [(5, 15)])) = .next t ∧ t.fault = none :=
  ⟨⟨_, ⟨rfl, by decide, rfl⟩, rfl, by decide⟩, ⟨_, ⟨rfl, by decide, rfl⟩, rfl, by decide⟩,
    ⟨_, ⟨rfl, by decide, rfl⟩, rfl, by decide⟩, ⟨_, rfl, rfl⟩, ⟨_, rfl, rfl⟩, _, rfl, rfl⟩

theorem test_witness_TimersTickEveryCompletedCycle :
    (∃ t, Runs (.ldDtVx 0) (ready 0xF015 (regs [(0, 3)])) ∧ step (ready 0xF015 (regs [(0, 3)])) = .next t ∧
      t.fault = none) ∧
    (∃ t, Runs (.ldStVx 0) (ready 0xF018 (regs [(0, 3)])) ∧ step (ready 0xF018 (regs [(0, 3)])) = .next t ∧
      t.fault = none) ∧
    ∃ t, Runs (.jp 0x200) (ready 0x1200) ∧ step (ready 0x1200) = .next t ∧ t.fault = none :=
  ⟨⟨_, ⟨rfl, by decide, rfl⟩, rfl, rfl⟩, ⟨_, ⟨rfl, by decide, rfl⟩, rfl, rfl⟩, _, ⟨rfl, by decide, rfl⟩, rfl, rfl⟩

/-- A jump to itself, one cycle. -/
theorem test_witness_DelayTimerCountsCycles :
    ∃ t, core.run 1 (ready 0x1200 { State.reset with dt := 2 }) = .next t ∧ t.fault = none ∧
      ∀ k u x, k < 1 → core.run k (ready 0x1200 { State.reset with dt := 2 }) = .next u → ¬Runs (.ldDtVx x) u := by
  refine ⟨_, rfl, rfl, fun k u x hk hu hr => ?_⟩
  obtain rfl : k = 0 := by omega
  cases hu
  cases hr.2.2

theorem test_witness_ReturnPopsTheStack :
    inCall.sp.val = (0 : Fin 16).val + 1 ∧ ({ inCall with sp := 16 } : State).sp.val = (15 : Fin 16).val + 1 ∧
    State.reset.sp.val = 0 := ⟨rfl, rfl, rfl⟩

theorem test_witness_CallPushesReturnAddress :
    State.reset.sp.val = (0 : Fin 16).val ∧ ({ inCall with sp := 15 } : State).sp.val = (15 : Fin 16).val ∧
    ({ inCall with sp := 16 } : State).sp.val = 16 := ⟨rfl, rfl, rfl⟩

theorem test_witness_ReturnUndoesCall :
    ∃ t u : State, exec (.call 0x210) inCall = .next t ∧ t.fault = none ∧ u.sp = t.sp ∧ u.stack = t.stack :=
  ⟨_, _, rfl, rfl, rfl, rfl⟩

theorem test_witness_SkipsAddTwoWhenConditionHolds :
    vNat (regs [(3, 5)]) 3 = (5 : Byte).toNat ∧ vNat (regs [(3, 5)]) 3 ≠ (4 : Byte).toNat ∧
    vNat (regs [(1, 7), (2, 7)]) 1 = vNat (regs [(1, 7), (2, 7)]) 2 ∧
    vNat (regs [(1, 7), (2, 8)]) 1 ≠ vNat (regs [(1, 7), (2, 8)]) 2 := by decide

/-- BCD stores at both ends of what a program may store to, and fails at each of its three addresses. -/
theorem test_witness_BcdStoresThreeDigits :
    (∀ k, k < 3 → Storable (effAddr { State.reset with i := 0x200 } k)) ∧
    (∀ k, k < 3 → Storable (effAddr { State.reset with i := 0xFFD } k)) ∧
    ¬Storable (effAddr { State.reset with i := 0x1FF } 0) ∧
    ((∀ j, j < 1 → Storable (effAddr { State.reset with i := 0xFFF } j)) ∧
      ¬Storable (effAddr { State.reset with i := 0xFFF } 1)) ∧
    (∀ j, j < 2 → Storable (effAddr { State.reset with i := 0xFFE } j)) ∧
      ¬Storable (effAddr { State.reset with i := 0xFFE } 2) := by
  unfold Storable
  decide

theorem test_witness_DumpStoresRegisters :
    (∀ r : Reg, r ≤ 0xF → Storable (effAddr { State.reset with i := 0xFF0 } r.val)) ∧
    ((∀ q : Reg, q < 0xF → Storable (effAddr { State.reset with i := 0xFF1 } q.val)) ∧
      ¬Storable (effAddr { State.reset with i := 0xFF1 } (0xF : Reg).val)) ∧
    ¬Storable (effAddr { State.reset with i := 0x1FF } (0 : Reg).val) := by
  unfold Storable
  decide

theorem test_witness_LoadFillsRegisters :
    (∀ r : Reg, r ≤ 0xF → effAddr { State.reset with i := 0xFF0 } r.val ≤ 0xFFF) ∧
    (∀ q : Reg, q < 0xF → effAddr { State.reset with i := 0xFF1 } q.val ≤ 0xFFF) ∧
    effAddr { State.reset with i := 0xFF1 } (0xF : Reg).val > 0xFFF ∧
    effAddr { State.reset with i := 0xFFFF } (0 : Reg).val > 0xFFF := by decide

theorem test_witness_DumpThenLoadRestores :
    ∃ s t u : State, exec (.ldMemVx 1) s = .next t ∧ t.fault = none ∧ u.i = s.i ∧ u.mem = t.mem ∧
      readV u 0 ≠ readV s 0 :=
  ⟨{ regs [(0, 1), (1, 2)] with i := 0x300 }, _, { State.reset with i := 0x300, mem := [(0x300, 1), (0x301, 2)] },
    rfl, rfl, rfl, by decide, by decide⟩

/-- A sprite that fits the last cell exactly (V4.9), and one with no rows. -/
theorem test_witness_DrawTogglesCellsAndFlagsCollision :
    (∀ row, row < (1 : Reg).val →
      RowDrawable { regs [(0, 0x3C), (1, 0x1F)] with i := 0x300, mem := [(0x300, 0x10)] } 0 1 row) ∧
    (∀ row, row < (0 : Reg).val → RowDrawable { State.reset with i := 0xFFFF } 0 1 row) := by
  unfold RowDrawable
  decide

/-- A second row past memory (V4.12), and a fifth column past the array (V4.8). -/
theorem test_witness_DrawFaultsAtFirstBadPixel :
    ((1 : Nat) < (2 : Reg).val ∧
      (∀ r, r < 1 → RowDrawable { State.reset with i := 0xFFF, mem := [(0xFFF, 0x80)] } 0 1 r) ∧
      effAddr { State.reset with i := 0xFFF, mem := [(0xFFF, 0x80)] } 1 > 0xFFF) ∧
    ((∀ r, r < 0 → RowDrawable { regs [(0, 0x3C), (1, 0x1F)] with i := 0x300, mem := [(0x300, 0x0F)] } 0 1 r) ∧
      effAddr { regs [(0, 0x3C), (1, 0x1F)] with i := 0x300, mem := [(0x300, 0x0F)] } 0 ≤ 0xFFF ∧
      spriteBitAt { regs [(0, 0x3C), (1, 0x1F)] with i := 0x300, mem := [(0x300, 0x0F)] } 0 4 = true ∧
      cellOf { regs [(0, 0x3C), (1, 0x1F)] with i := 0x300, mem := [(0x300, 0x0F)] } 0 1 0 4 = 2048 ∧
      ∀ c, c < 4 → spriteBitAt { regs [(0, 0x3C), (1, 0x1F)] with i := 0x300, mem := [(0x300, 0x0F)] } 0 c = true →
        cellOf { regs [(0, 0x3C), (1, 0x1F)] with i := 0x300, mem := [(0x300, 0x0F)] } 0 1 0 c < 2048) := by
  unfold RowDrawable
  decide

theorem test_witness_DrawingTwiceRestoresCells :
    ∃ s t v : State, (0 : Reg) ≠ flagReg ∧ (1 : Reg) ≠ flagReg ∧ exec (.drw 0 1 1) s = .next t ∧ t.fault = none ∧
      exec (.drw 0 1 1) t = .next v :=
  ⟨{ regs [(0, 0x3E), (1, 1)] with i := 0x300, mem := [(0x300, 0xF0)] }, _, _, by decide, by decide, rfl,
    by decide +kernel, rfl⟩

theorem test_witness_KeySkips :
    vNat (regs [(5, 15)]) 5 = (15 : Reg).val ∧ vNat (regs [(5, 16)]) 5 > 15 := by decide

theorem test_witness_WaitForKeyTakesLowest :
    (keyAt (press [0xF, 7] State.reset) 7 = true ∧ ∀ j : Reg, j < 7 → keyAt (press [0xF, 7] State.reset) j = false) ∧
    ∀ k : Reg, keyAt State.reset k = false := by decide

theorem test_witness_ReadDelayTimerBeforeTick : Runs (.ldVxDt 3) (ready 0xF307) := ⟨rfl, by decide, rfl⟩

theorem test_witness_SetTimersThenTick : Runs (.ldDtVx 0) (ready 0xF015) ∧ Runs (.ldStVx 2) (ready 0xF218) :=
  ⟨⟨rfl, by decide, rfl⟩, rfl, by decide, rfl⟩

theorem test_witness_LoadPlacesProgramVerbatim :
    (List.replicate 3585 (0x60 : Byte)).length > 3584 ∧ (List.replicate 3584 (0x60 : Byte)).length ≤ 3584 ∧
    loadAdmitted State.reset = true := by
  simp only [List.length_replicate]
  decide

theorem test_witness_LoadAdmittedOnceBeforeFirstStep :
    ∃ s t, loadProgram [0x60, 0x05] State.reset = .next s ∧ step s = .next t ∧ loadAdmitted t = false ∧
      act (.key 0 true) t = .next (press [0] t) := ⟨_, _, rfl, rfl, rfl, rfl⟩

theorem test_witness_OnlyTheHostWritesKeys : ∃ t, core.run 2 inCall = .next t := ⟨_, rfl⟩

theorem test_witness_OpcodeMapSelectsInstructions : missWord (0xF1FF#16).toNat := by
  unfold missWord
  decide

/-- Registers for every clause: neither is VF, the second is, the first is, both are the same. -/
theorem test_witness_SubtractSetsStrictFlag :
    ((1 : Reg) ≠ flagReg ∧ (2 : Reg) ≠ flagReg) ∧ ((1 : Reg) ≠ flagReg ∧ (0xF : Reg) = flagReg) ∧
    ((0xF : Reg) = flagReg ∧ (2 : Reg) ≠ flagReg) ∧ (0xF : Reg) = 0xF := by decide

theorem test_witness_SubtractReverseSetsStrictFlag :
    ((14 : Reg) ≠ flagReg ∧ (0 : Reg) ≠ flagReg) ∧ ((14 : Reg) ≠ flagReg ∧ (0xF : Reg) = flagReg) ∧
    ((0xF : Reg) = flagReg ∧ (14 : Reg) ≠ flagReg) ∧ (14 : Reg) = 14 := by decide

theorem test_witness_AddSetsCarry : (14 : Reg) ≠ flagReg := by decide

theorem test_witness_ShiftRightHalves : (14 : Reg) ≠ flagReg ∧ (0xF : Reg) = flagReg := by decide

theorem test_witness_ShiftLeftDoubles : (0 : Reg) ≠ flagReg ∧ (0xF : Reg) = flagReg := by decide

theorem test_witness_RandomByteIsMasked : (0 : Byte) = 0 := rfl

end Sys2Proof.Tests
end

section
/-! PROOFS. The access primitives of `20_memory.md`. -/

namespace Sys2Proof.Machine

/-- The bound check comes first (R228), so the byte and the reserved check play no part. -/
theorem memWrite_memoryFault {s : State} {a : Nat} {b : Byte} (h : 0xFFF < a) :
    memWrite s a b = .error (.memoryFault, a) := by
  simp [memWrite, h]

theorem memWrite_reservedWriteFault {s : State} {a : Nat} {b : Byte} (h : a < 0x200) :
    memWrite s a b = .error (.reservedWriteFault, a) := by
  have hi : ¬ 0xFFF < a := by omega
  simp [memWrite, hi, h]

/-- The frame of a store: every part but memory is read from a field that `pokeMem` keeps. -/
theorem pokeMem_unchangedBut_memory (s : State) (a : Nat) (b : Byte) :
    UnchangedBut [.memory] s (pokeMem s a b) := by
  intro p hp
  cases p with
  | memory => simp at hp
  | regs => exact readV_congr (pokeMem_v s a b)
  | stack => exact slotAt_congr (pokeMem_stack s a b)
  | keys => exact keyAt_congr (pokeMem_key s a b)
  | cells => exact readCell_congr (pokeMem_fb s a b)
  | pc | index | sp | dt | st | latch | fault | loaded | stepped | draws => simp [Unchanged]

/-- Settles O8: one clause per range of the address (R53, R54); an admitted write is `pokeMem`. -/
theorem memoryPrimitivesCheckBounds : Obligations.MemoryPrimitivesCheckBounds := by
  intro s a b
  refine ⟨fun hi => ⟨memRead_fault hi, memWrite_memoryFault hi⟩, memRead_ok, memWrite_reservedWriteFault,
    fun lo hi => ⟨pokeMem s a b, memWrite_ok lo hi, ?_, fun c hc => ?_, pokeMem_unchangedBut_memory s a b⟩⟩
  · simp
  · simpa using Memory.read_write_other s.mem b hc

end Sys2Proof.Machine
end

section
/-! PROOFS. What a step leaves unchanged, composed: the frames of the updates that control transfer uses. -/

namespace Sys2Proof.Machine

theorem unchanged_trans {s t u : State} {p : Part} (h₁ : Unchanged s t p) (h₂ : Unchanged t u p) :
    Unchanged s u p := by
  cases p with
  | regs | stack | keys | cells | memory => exact fun k => (h₂ k).trans (h₁ k)
  | pc | index | sp | dt | st | latch | fault | loaded | stepped | draws => exact Eq.trans h₂ h₁

theorem unchanged_refl (s : State) (p : Part) : Unchanged s s p := by
  cases p with
  | regs | stack | keys | cells | memory => exact fun _ => rfl
  | pc | index | sp | dt | st | latch | fault | loaded | stepped | draws => rfl

/-- Two updates in a row leave what both of them leave. -/
theorem unchangedBut_trans {ps qs : List Part} {s t u : State} (h₁ : UnchangedBut ps s t)
    (h₂ : UnchangedBut qs t u) : UnchangedBut (ps ++ qs) s u := by
  intro p hp
  rw [List.mem_append, not_or] at hp
  exact unchanged_trans (h₁ p hp.1) (h₂ p hp.2)

theorem setPc_unchangedBut_pc (s : State) (w : Word) : UnchangedBut [.pc] s (setPc s w) := by
  intro p hp
  cases p with
  | pc => simp at hp
  | regs | stack | keys | cells | memory => exact fun _ => rfl
  | index | sp | dt | st | latch | fault | loaded | stepped | draws => rfl

theorem skipIf_unchangedBut_pc (c : Bool) (s : State) : UnchangedBut [.pc] s (skipIf c s) := by
  cases c with
  | false => exact fun p _ => unchanged_refl s p
  | true => exact setPc_unchangedBut_pc s (s.pc + 2)

theorem pushPc_unchangedBut_stack_sp {s t : State} (h : pushPc s = .ok t) : UnchangedBut [.stack, .sp] s t := by
  obtain ⟨-, -, -, ht⟩ := pushPc_eq_ok h
  intro p hp
  rw [ht]
  cases p with
  | stack | sp => simp at hp
  | regs | keys | cells | memory => exact fun _ => rfl
  | pc | index | dt | st | latch | fault | loaded | stepped | draws => rfl

/-- A raise in a handler writes the record and nothing else (R220). -/
theorem raiseFault_raised (s : State) (code : Fault) (info : Nat) : Raised code info s (raiseFault s (code, info)) := by
  refine ⟨raiseFault_fault s (code, info), fun p hp => ?_⟩
  cases p with
  | fault => simp at hp
  | regs | stack | keys | cells | memory => exact fun _ => rfl
  | pc | index | sp | dt | st | latch | loaded | stepped | draws => rfl

end Sys2Proof.Machine
end

section
/-! PROOFS. Control transfer (`41_control.md`): CALL and the four skips on registers and immediates. -/

namespace Sys2Proof.Machine

theorem targetOf_toNat (nnn : Addr12) : (targetOf nnn).toNat = nnn.toNat :=
  BitVec.toNat_setWidth_of_le (by decide)

theorem exec_call_of_pushPc_ok {nnn : Addr12} {s t : State} (h : pushPc s = .ok t) :
    exec (.call nnn) s = .next (setPc t (targetOf nnn)) := by
  simp [exec, execCall, h]

theorem exec_call_of_pushPc_error {nnn : Addr12} {s : State} {e : Raise} (h : pushPc s = .error e) :
    exec (.call nnn) s = .next (raiseFault s e) := by
  simp [exec, execCall, h]

/-- Settles O32: below 16 frames the push goes through and the jump follows it; at 16 the push raises. -/
theorem callPushesReturnAddress : Obligations.CallPushesReturnAddress := by
  intro nnn s
  refine ⟨fun k hk => ?_, fun hfull => ?_⟩
  · obtain ⟨t, ht⟩ := pushPc_ok (hk ▸ k.isLt)
    obtain ⟨-, hsp, hslot, -⟩ := pushPc_eq_ok ht
    have hslot' (j : Fin 16) : slotAt (setPc t (targetOf nnn)) j = if j = k then s.pc else slotAt s j := by
      rw [slotAt_congr (setPc_stack t (targetOf nnn)), hslot, hk]
      simp only [Fin.ext_iff]
    exact ⟨setPc t (targetOf nnn), exec_call_of_pushPc_ok ht, by simp [hslot'],
      fun j hj => by simp [hslot', hj], hk ▸ hsp, targetOf_toNat nnn,
      unchangedBut_trans (pushPc_unchangedBut_stack_sp ht) (setPc_unchangedBut_pc t (targetOf nnn))⟩
  · exact ⟨raiseFault s (.stackOverflow, 16), exec_call_of_pushPc_error (pushPc_full hfull),
      raiseFault_raised s .stackOverflow 16⟩

/-- An instruction that is a skip on `c` adds 2 to `PC` when `P` holds and keeps it when `Q` holds, where `P` and `Q`
say in the statement's words that `c` is true and that it is false (R103). -/
theorem skip_outcome {i : Instr} {s : State} {c : Bool} {P Q : Prop} (hi : exec i s = .next (skipIf c s))
    (hP : P → c = true) (hQ : Q → c = false) :
    ∃ t, exec i s = .next t ∧ (P → t.pc = s.pc + 2) ∧ (Q → t.pc = s.pc) ∧ UnchangedBut [.pc] s t :=
  ⟨skipIf c s, hi, fun h => by simp [hP h], fun h => by simp [hQ h], skipIf_unchangedBut_pc c s⟩

theorem vNat_eq_toNat_iff {s : State} {x : Reg} {b : Byte} : vNat s x = b.toNat ↔ readV s x = b :=
  BitVec.toNat_inj

theorem vNat_eq_vNat_iff {s : State} {x y : Reg} : vNat s x = vNat s y ↔ readV s x = readV s y :=
  BitVec.toNat_inj

/-- Settles O34: each of the four handlers is a skip on its condition, and bytes are equal exactly when their
numbers are. -/
theorem skipsAddTwoWhenConditionHolds : Obligations.SkipsAddTwoWhenConditionHolds := by
  intro x y kk g s
  simp only [ne_eq, vNat_eq_toNat_iff, vNat_eq_vNat_iff]
  exact ⟨skip_outcome rfl decide_eq_true decide_eq_false,
    skip_outcome rfl decide_eq_true (fun h => decide_eq_false (not_not_intro h)),
    skip_outcome rfl decide_eq_true decide_eq_false,
    skip_outcome rfl decide_eq_true (fun h => decide_eq_false (not_not_intro h))⟩

end Sys2Proof.Machine
end

section
/-! PROOFS. Registers written by arithmetic: one register, or VF and then one register. What each write leaves
unchanged, and what reading gives after it. -/

namespace Sys2Proof.Machine

theorem writeV_unchangedBut_regs (s : State) (x : Reg) (b : Byte) : UnchangedBut [.regs] s (writeV s x b) := by
  intro p hp
  cases p with
  | regs => simp at hp
  | stack | keys | cells | memory => exact fun _ => rfl
  | pc | index | sp | dt | st | latch | fault | loaded | stepped | draws => rfl

theorem writeV_regsBut (s : State) (x : Reg) (b : Byte) : RegsBut [x] s (writeV s x b) :=
  fun _ hr => readV_writeV_other s b (List.ne_of_not_mem_cons hr)

/-- The frame of one register write. -/
theorem writeV_frame (s : State) (x : Reg) (b : Byte) :
    RegsBut [x] s (writeV s x b) ∧ UnchangedBut [.regs] s (writeV s x b) :=
  ⟨writeV_regsBut s x b, writeV_unchangedBut_regs s x b⟩

theorem flagThenWrite_unchangedBut_regs (s : State) (x : Reg) (f b : Byte) :
    UnchangedBut [.regs] s (writeV (setFlag s f) x b) :=
  fun p hp => unchanged_trans (writeV_unchangedBut_regs s flagReg f p hp)
    (writeV_unchangedBut_regs (setFlag s f) x b p hp)

theorem flagThenWrite_regsBut (s : State) (x : Reg) (f b : Byte) :
    RegsBut [flagReg, x] s (writeV (setFlag s f) x b) := by
  intro r hr
  obtain ⟨hflag, hx⟩ := List.ne_and_not_mem_of_not_mem_cons hr
  exact (writeV_regsBut (setFlag s f) x b r hx).trans (readV_writeV_other s f hflag)

/-- The frame of a flag write followed by a register write. -/
theorem flagThenWrite_frame (s : State) (x : Reg) (f b : Byte) :
    RegsBut [flagReg, x] s (writeV (setFlag s f) x b) ∧ UnchangedBut [.regs] s (writeV (setFlag s f) x b) :=
  ⟨flagThenWrite_regsBut s x f b, flagThenWrite_unchangedBut_regs s x f b⟩

@[simp] theorem vNat_writeV_same (s : State) (x : Reg) (b : Byte) : vNat (writeV s x b) x = b.toNat :=
  congrArg BitVec.toNat (readV_writeV_same s x b)

theorem vNat_setFlag (s : State) (r : Reg) (f : Byte) :
    vNat (setFlag s f) r = if r = flagReg then f.toNat else vNat s r :=
  (congrArg BitVec.toNat (readV_setFlag s r f)).trans (apply_ite BitVec.toNat _ f (readV s r))

/-- The flag survives the write of a destination that is not VF. -/
theorem vNat_flag_of_flagThenWrite (s : State) {x : Reg} (f b : Byte) (hx : x ≠ flagReg) :
    vNat (writeV (setFlag s f) x b) flagReg = f.toNat :=
  congrArg BitVec.toNat ((readV_writeV_other (setFlag s f) b hx.symm).trans (readV_setFlag_same s f))

end Sys2Proof.Machine
end

section
/-! PROOFS. Byte arithmetic and the flag bytes (R142) as numbers. -/

namespace Sys2Proof.Machine

theorem byte_sub_toNat (a b : Byte) : (a - b).toNat = (a.toNat + 256 - b.toNat) % 256 := by
  bv_omega

theorem byte_shiftRight_one_toNat (b : Byte) : (b >>> 1).toNat = b.toNat / 2 := by
  rw [BitVec.toNat_ushiftRight, Nat.shiftRight_eq_div_pow, pow_one]

theorem byte_shiftLeft_one_toNat (b : Byte) : (b <<< 1).toNat = b.toNat * 2 % 256 := by
  rw [BitVec.toNat_shiftLeft, Nat.shiftLeft_eq, pow_one]

theorem carryFlag_toNat (a b : Byte) : (carryFlag a b).toNat = if a.toNat + b.toNat > 255 then 1 else 0 :=
  apply_ite BitVec.toNat _ 1 0

theorem greaterFlag_toNat (a b : Byte) : (greaterFlag a b).toNat = if a.toNat > b.toNat then 1 else 0 :=
  apply_ite BitVec.toNat _ 1 0

theorem lowBitFlag_toNat (a : Byte) : (lowBitFlag a).toNat = a.toNat % 2 :=
  (BitVec.toNat_and a 1).trans (Nat.and_one_is_mod a.toNat)

/-- The mask keeps bit 7 alone, so shifting the byte and masking afterwards gives the same. -/
theorem highBitFlag_toNat (a : Byte) : (highBitFlag a).toNat = a.toNat / 128 := by
  have ha : a.toNat < 256 := a.isLt
  have hshift : highBitFlag a = (a >>> 7) &&& 1 := BitVec.ushiftRight_and_distrib a 0x80 7
  calc (highBitFlag a).toNat = a.toNat / 128 % 2 := by
        rw [hshift, BitVec.toNat_and, BitVec.toNat_ushiftRight, Nat.shiftRight_eq_div_pow]
        exact Nat.and_one_is_mod _
    _ = a.toNat / 128 := by omega

end Sys2Proof.Machine
end

section
/-! PROOFS. Register arithmetic, logic and shifts (`42_alu.md`). Each handler is one of the two writes above. -/

namespace Sys2Proof.Machine

/-- Settles O35: the instruction is one register write. -/
theorem loadImmediateSetsRegister : Obligations.LoadImmediateSetsRegister :=
  fun x kk s => ⟨writeV s x kk, rfl, readV_writeV_same s x kk, writeV_frame s x kk⟩

/-- Settles O36: the sum of two bytes is their sum modulo 256. -/
theorem addImmediateWrapsWithoutFlag : Obligations.AddImmediateWrapsWithoutFlag := by
  intro x kk s
  refine ⟨writeV s x (readV s x + kk), rfl, ?_, writeV_frame _ _ _⟩
  exact (vNat_writeV_same _ _ _).trans (BitVec.toNat_add _ _)

/-- Settles O37: the four differ only in the byte they write. -/
theorem copyAndLogicWithoutFlag : Obligations.CopyAndLogicWithoutFlag := by
  intro x y s
  refine ⟨⟨_, rfl, readV_writeV_same _ _ _, writeV_frame _ _ _⟩, ⟨_, rfl, fun b => ?_, writeV_frame _ _ _⟩,
    ⟨_, rfl, fun b => ?_, writeV_frame _ _ _⟩, ⟨_, rfl, fun b => ?_, writeV_frame _ _ _⟩⟩
  · rw [readV_writeV_same, BitVec.getLsbD_or]
  · rw [readV_writeV_same, BitVec.getLsbD_and]
  · rw [readV_writeV_same, BitVec.getLsbD_xor]

/-- Settles O38: the sum written is of the old operands, and only a destination VF loses the carry. -/
theorem addSetsCarry : Obligations.AddSetsCarry := by
  intro x y s
  refine ⟨_, rfl, ?_, fun hx => ?_, flagThenWrite_frame _ _ _ _⟩
  · exact (vNat_writeV_same _ _ _).trans (BitVec.toNat_add _ _)
  · exact (vNat_flag_of_flagThenWrite _ _ _ hx).trans (carryFlag_toNat _ _)

/-- A difference of two registers read after the flag `f` is written: an operand that is VF counts as `f` (D16). -/
theorem vNat_difference_after_flag (s : State) (x a b : Reg) (f : Byte) :
    vNat (writeV (setFlag s f) x (readV (setFlag s f) a - readV (setFlag s f) b)) x =
      ((if a = flagReg then f.toNat else vNat s a) + 256 - if b = flagReg then f.toNat else vNat s b) % 256 := by
  rw [← vNat_setFlag, ← vNat_setFlag, vNat_writeV_same]
  exact byte_sub_toNat _ _

/-- What SUB and SUBN have in common: the flag byte `g`, of value `f`, is written first, then register `x` takes the
difference of `a` and `b`, with a clause per way in which `a` and `b` can be VF. -/
theorem flag_then_difference_outcome {i : Instr} {s : State} {x a b : Reg} {g : Byte} {f : Nat} (hg : g.toNat = f)
    (hi : exec i s = .next (writeV (setFlag s g) x (readV (setFlag s g) a - readV (setFlag s g) b))) :
    ∃ t, exec i s = .next t ∧
      ((x ≠ flagReg → vNat t flagReg = f) ∧
       (a ≠ flagReg → b ≠ flagReg → vNat t x = (vNat s a + 256 - vNat s b) % 256) ∧
       (a ≠ flagReg → b = flagReg → vNat t x = (vNat s a + 256 - f) % 256) ∧
       (a = flagReg → b ≠ flagReg → vNat t x = (f + 256 - vNat s b) % 256) ∧
       (a = b → vNat t x = 0)) ∧
      RegsBut [flagReg, x] s t ∧ UnchangedBut [.regs] s t := by
  refine ⟨_, hi, ⟨fun hx => ?_, fun ha hb => ?_, fun ha hb => ?_, fun ha hb => ?_, fun hab => ?_⟩,
    flagThenWrite_frame _ _ _ _⟩
  · rw [vNat_flag_of_flagThenWrite _ _ _ hx, hg]
  · rw [vNat_difference_after_flag, if_neg ha, if_neg hb]
  · rw [vNat_difference_after_flag, if_neg ha, if_pos hb, hg]
  · rw [vNat_difference_after_flag, if_pos ha, if_neg hb, hg]
  · rw [vNat_difference_after_flag, hab, Nat.add_sub_cancel_left]

/-- Settles O39: the minuend is X. -/
theorem subtractSetsStrictFlag : Obligations.SubtractSetsStrictFlag :=
  fun _ _ _ => flag_then_difference_outcome (greaterFlag_toNat _ _) rfl

/-- Settles O40: the minuend is Y, so the clauses come with X and Y exchanged. -/
theorem subtractReverseSetsStrictFlag : Obligations.SubtractReverseSetsStrictFlag := by
  intro x y s
  obtain ⟨t, ht, ⟨hflag, hneither, hsubtrahend, hminuend, hsame⟩, hframe⟩ :=
    flag_then_difference_outcome (i := .subn x y) (greaterFlag_toNat (readV s y) (readV s x)) rfl
  exact ⟨t, ht, ⟨hflag, fun hx hy => hneither hy hx, fun hx hy => hminuend hy hx,
    fun hx hy => hsubtrahend hy hx, fun hxy => hsame hxy.symm⟩, hframe⟩

/-- Settles O41: VF shifted itself holds its old bit 0 by then, and half of a bit is 0. -/
theorem shiftRightHalves : Obligations.ShiftRightHalves := by
  intro x g s
  have hhalf : vNat (writeV (setFlag s (lowBitFlag (readV s x))) x _) x =
      vNat (setFlag s (lowBitFlag (readV s x))) x / 2 :=
    (vNat_writeV_same _ _ _).trans (byte_shiftRight_one_toNat _)
  refine ⟨_, rfl, fun hx => ⟨?_, ?_⟩, fun hx => ?_, flagThenWrite_frame _ _ _ _⟩
  · rw [hhalf, vNat_setFlag, if_neg hx]
  · exact (vNat_flag_of_flagThenWrite _ _ _ hx).trans (lowBitFlag_toNat _)
  · rw [hhalf, vNat_setFlag, if_pos hx, lowBitFlag_toNat]
    omega

/-- Settles O42: VF shifted itself holds its old bit 7 by then, and twice a bit does not wrap. -/
theorem shiftLeftDoubles : Obligations.ShiftLeftDoubles := by
  intro x g s
  have hbyte : vNat s x < 256 := (readV s x).isLt
  have hflag : (highBitFlag (readV s x)).toNat = vNat s x / 128 := highBitFlag_toNat _
  have hdouble : vNat (writeV (setFlag s (highBitFlag (readV s x))) x _) x =
      vNat (setFlag s (highBitFlag (readV s x))) x * 2 % 256 :=
    (vNat_writeV_same _ _ _).trans (byte_shiftLeft_one_toNat _)
  refine ⟨_, rfl, fun hx => ⟨?_, ?_⟩, fun hx => ?_, flagThenWrite_frame _ _ _ _⟩
  · rw [hdouble, vNat_setFlag, if_neg hx]
  · exact (vNat_flag_of_flagThenWrite _ _ _ hx).trans hflag
  · rw [hdouble, vNat_setFlag, if_pos hx, hflag]
    omega

end Sys2Proof.Machine
end

section
/-! PROOFS. Index register (`43_index_memory.md` R160 to R162): each of the three instructions is one write of I. -/

namespace Sys2Proof.Machine

theorem setI_unchangedBut_index (s : State) (w : Word) : UnchangedBut [.index] s (setI s w) := by
  intro p hp
  cases p with
  | index => simp at hp
  | regs | stack | keys | cells | memory => exact fun _ => rfl
  | pc | sp | dt | st | latch | fault | loaded | stepped | draws => rfl

theorem indexSum_toNat (s : State) (x : Reg) : (indexSum s x).toNat = (s.i.toNat + vNat s x) % 65536 := by
  rw [indexSum, BitVec.toNat_add, BitVec.toNat_setWidth_of_le (by decide), vNat]

theorem glyphAddress_toNat (s : State) (x : Reg) :
    (glyphAddress s x).toNat = (Config.glyphBase + 5 * vNat s x) % 65536 :=
  BitVec.toNat_ofNat _ _

/-- The bounds of log entry 8 and of a byte: GLYPH_BASE is at most 432 and 5 * V[X] at most 1275. -/
theorem glyphBase_add_lt (s : State) (x : Reg) : Config.glyphBase + 5 * vNat s x < 0x1000 := by
  have hbase : Config.glyphBase < 433 := Config.glyphBaseIndex.isLt
  have hbyte : vNat s x < 256 := (readV s x).isLt
  omega

/-- Settles O44: both handlers are one write of I. -/
theorem indexLoadAndAdd : Obligations.IndexLoadAndAdd :=
  ⟨fun nnn s => ⟨setI s (targetOf nnn), rfl, targetOf_toNat nnn, setI_unchangedBut_index s _⟩,
    fun x s => ⟨setI s (indexSum s x), rfl, indexSum_toNat s x, setI_unchangedBut_index s _⟩⟩

/-- Settles O45: the sum stays below 0x1000, so the reduction modulo 65536 does nothing. -/
theorem glyphIndexIsBasePlusFive : Obligations.GlyphIndexIsBasePlusFive := by
  intro x s
  have hlt := glyphBase_add_lt s x
  have hexact : (glyphAddress s x).toNat = Config.glyphBase + 5 * vNat s x := by
    rw [glyphAddress_toNat, Nat.mod_eq_of_lt (by omega)]
  exact ⟨setI s (glyphAddress s x), rfl, glyphAddress_toNat s x, hexact, hexact ▸ hlt,
    setI_unchangedBut_index s _⟩

end Sys2Proof.Machine
end

section
/-! PROOFS. Memory transfer (`43_index_memory.md` R163, R164): LD B,Vx and LD [I],Vx are each a list of stores at rising
addresses. Rising addresses are all different, so every stored byte stays, and the first address that may not be stored
to is the least. -/

namespace Sys2Proof.Machine

theorem storeAll_unchangedBut_memory {l : List (Nat × Byte)} {s t : State} (h : storeAll l s = .ok t) :
    UnchangedBut [.memory] s t := by
  obtain ⟨-, ht, -, -⟩ := storeAll_eq_ok h
  intro p hp
  rw [ht]
  cases p with
  | memory => simp at hp
  | regs | stack | keys | cells => exact fun _ => rfl
  | pc | index | sp | dt | st | latch | fault | loaded | stepped | draws => rfl

/-- With rising addresses, the store that raises is the one at the least address that may not be stored to (R228). -/
theorem storeAll_error_of_least {l : List (Nat × Byte)} (hrise : (l.map Prod.fst).Pairwise (· < ·)) {a : Nat}
    (ha : a ∈ l.map Prod.fst) (hbelow : ∀ c ∈ l.map Prod.fst, c < a → Storable c) (hbad : ¬Storable a) (s : State) :
    storeAll l s = .error (storeFault a, a) := by
  obtain ⟨⟨a, b⟩, hp, rfl⟩ := List.mem_map.mp ha
  obtain ⟨l₁, l₂, rfl⟩ := List.append_of_mem hp
  rw [List.pairwise_map, List.pairwise_append] at hrise
  obtain ⟨-, -, hcross⟩ := hrise
  have hfirst : ∀ q ∈ l₁, Storable q.1 := fun q hq =>
    hbelow q.1 (List.mem_map_of_mem (List.mem_append_left _ hq)) (hcross q hq (a, b) List.mem_cons_self)
  rw [storeAll_first_error hfirst s hbad, storeFault]
  exact congrArg Except.error (apply_ite (fun f : Fault => (f, a)) _ _ _).symm

/-- What an instruction that is a list of stores does when every address may be stored to. -/
theorem stores_outcome {i : Instr} {s : State} {l : List (Nat × Byte)} (hi : exec i s = conclude s (storeAll l s))
    (hrise : (l.map Prod.fst).Pairwise (· < ·)) (hok : ∀ a ∈ l.map Prod.fst, Storable a) :
    ∃ t, exec i s = .next t ∧ (∀ p ∈ l, t.mem.read p.1 = p.2) ∧
      (∀ a, a ∉ l.map Prod.fst → t.mem.read a = s.mem.read a) ∧ UnchangedBut [.memory] s t := by
  obtain ⟨t, ht⟩ := storeAll_ok (fun p hp => hok p.1 (List.mem_map_of_mem hp)) s
  obtain ⟨-, -, hother, -⟩ := storeAll_eq_ok ht
  refine ⟨t, ?_, storeAll_read ht (hrise.imp Nat.ne_of_lt), fun a ha => hother a fun p hp hpa => ?_,
    storeAll_unchangedBut_memory ht⟩
  · rw [hi, ht, conclude_ok]
  · exact ha (List.mem_map.mpr ⟨p, hp, hpa⟩)

/-- What an instruction that is a list of stores does at the least address that may not be stored to. -/
theorem stores_raise {i : Instr} {s : State} {l : List (Nat × Byte)} (hi : exec i s = conclude s (storeAll l s))
    (hrise : (l.map Prod.fst).Pairwise (· < ·)) {a : Nat} (ha : a ∈ l.map Prod.fst)
    (hbelow : ∀ c ∈ l.map Prod.fst, c < a → Storable c) (hbad : ¬Storable a) :
    ∃ t, exec i s = .next t ∧ Raised (storeFault a) a s t := by
  refine ⟨raiseFault s (storeFault a, a), ?_, raiseFault_raised s _ _⟩
  rw [hi, storeAll_error_of_least hrise ha hbelow hbad, conclude_error]

theorem effAddr_lt_effAddr {s : State} {j k : Nat} : effAddr s j < effAddr s k ↔ j < k :=
  Nat.add_lt_add_iff_left

/-! ### LD B,Vx -/

theorem bcdStores_addresses (s : State) (x : Reg) : (bcdStores s x).map Prod.fst = (List.range 3).map (effAddr s) :=
  rfl

theorem mem_bcdStores_addresses {s : State} {x : Reg} {a : Nat} :
    a ∈ (bcdStores s x).map Prod.fst ↔ ∃ k, k < 3 ∧ effAddr s k = a := by
  simp only [bcdStores_addresses, List.mem_map, List.mem_range]

theorem bcdStores_addresses_rise (s : State) (x : Reg) : ((bcdStores s x).map Prod.fst).Pairwise (· < ·) := by
  rw [bcdStores_addresses, List.pairwise_map]
  exact List.pairwise_lt_range.imp effAddr_lt_effAddr.mpr

/-- Settles O46: the three digits are stores at rising addresses, and a digit of a byte is the digit of its number. -/
theorem bcdStoresThreeDigits : Obligations.BcdStoresThreeDigits := by
  intro x s
  have hrise := bcdStores_addresses_rise s x
  refine ⟨fun hok => ?_, fun k hk hbelow hbad => ?_⟩
  · obtain ⟨t, ht, hstored, hother, hframe⟩ := stores_outcome (i := .ldBVx x) rfl hrise fun a ha => by
      obtain ⟨k, hk, rfl⟩ := mem_bcdStores_addresses.mp ha
      exact hok k hk
    simp only [bcdStores, List.forall_mem_cons] at hstored
    obtain ⟨hhundreds, htens, hones, -⟩ := hstored
    refine ⟨t, ht, ?_, ?_, ?_, fun a ha => hother a fun hmem => ?_, hframe⟩
    · rw [hhundreds, BitVec.toNat_udiv]; rfl
    · rw [htens, BitVec.toNat_umod, BitVec.toNat_udiv]; rfl
    · rw [hones, BitVec.toNat_umod]; rfl
    · obtain ⟨k, hk, rfl⟩ := mem_bcdStores_addresses.mp hmem
      exact ha k hk rfl
  · refine stores_raise rfl hrise (mem_bcdStores_addresses.mpr ⟨k, hk, rfl⟩) (fun c hc hlt => ?_) hbad
    obtain ⟨j, -, rfl⟩ := mem_bcdStores_addresses.mp hc
    exact hbelow j (effAddr_lt_effAddr.mp hlt)

/-! ### LD [I],Vx -/

theorem regsThrough_rise (x : Reg) : (regsThrough x).Pairwise (· < ·) :=
  List.Pairwise.filter _ (by decide)

theorem dumpStores_addresses (s : State) (x : Reg) :
    (dumpStores s x).map Prod.fst = (regsThrough x).map fun r => effAddr s r.val :=
  List.map_map

theorem mem_dumpStores_addresses {s : State} {x : Reg} {a : Nat} :
    a ∈ (dumpStores s x).map Prod.fst ↔ ∃ r : Reg, r ≤ x ∧ effAddr s r.val = a := by
  simp only [dumpStores_addresses, List.mem_map, mem_regsThrough, Fin.le_def]

theorem dumpStores_addresses_rise (s : State) (x : Reg) : ((dumpStores s x).map Prod.fst).Pairwise (· < ·) := by
  rw [dumpStores_addresses, List.pairwise_map]
  exact (regsThrough_rise x).imp effAddr_lt_effAddr.mpr

theorem register_mem_dumpStores (s : State) {x r : Reg} (h : r ≤ x) : (effAddr s r.val, readV s r) ∈ dumpStores s x :=
  List.mem_map_of_mem (mem_regsThrough.mpr h)

/-- Settles O47: the registers are stores at rising addresses, in the registers' order. -/
theorem dumpStoresRegisters : Obligations.DumpStoresRegisters := by
  intro x s
  have hrise := dumpStores_addresses_rise s x
  refine ⟨fun hok => ?_, fun r hr hbelow hbad => ?_⟩
  · obtain ⟨t, ht, hstored, hother, hframe⟩ := stores_outcome (i := .ldMemVx x) rfl hrise fun a ha => by
      obtain ⟨r, hr, rfl⟩ := mem_dumpStores_addresses.mp ha
      exact hok r hr
    refine ⟨t, ht, fun r hr => hstored _ (register_mem_dumpStores s hr), fun a ha => hother a fun hmem => ?_, hframe⟩
    obtain ⟨r, hr, rfl⟩ := mem_dumpStores_addresses.mp hmem
    exact ha r hr rfl
  · refine stores_raise rfl hrise (mem_dumpStores_addresses.mpr ⟨r, hr, rfl⟩) (fun c hc hlt => ?_) hbad
    obtain ⟨q, -, rfl⟩ := mem_dumpStores_addresses.mp hc
    exact hbelow q (effAddr_lt_effAddr.mp hlt)

end Sys2Proof.Machine
end

section
/-! PROOFS. Display, CLS (`44_display.md` R180): the instruction is one clearing of the cells. -/

namespace Sys2Proof.Machine

theorem clearFb_unchangedBut_cells (s : State) : UnchangedBut [.cells] s (clearFb s) := by
  intro p hp
  cases p with
  | cells => simp at hp
  | regs | stack | keys | memory => exact fun _ => rfl
  | pc | index | sp | dt | st | latch | fault | loaded | stepped | draws => rfl

/-- Settles O50: the handler ignores its operand and is one clearing of the cells. -/
theorem clearScreenClearsEveryCell : Obligations.ClearScreenClearsEveryCell :=
  fun _ s => ⟨clearFb s, rfl, clearFb_cell s, clearFb_unchangedBut_cells s⟩

end Sys2Proof.Machine
end

section
/-! PROOFS. Keypad (`45_keypad_timers.md` R200, R201): SKP and SKNP are a skip on the level of key `V[X]`, or the raise
of reading it. -/

namespace Sys2Proof.Machine

theorem exec_skp_of_key {x k : Reg} {s : State} (g : Nibble) (h : vNat s x = k.val) :
    exec (.skp x g) s = .next (skipIf (keyAt s k) s) := by
  simp [exec, execSkp, readKey_ok k h]

theorem exec_sknp_of_key {x k : Reg} {s : State} (g : Nibble) (h : vNat s x = k.val) :
    exec (.sknp x g) s = .next (skipIf (!keyAt s k) s) := by
  simp [exec, execSknp, readKey_ok k h]

theorem exec_skp_of_no_key {x : Reg} {s : State} (g : Nibble) (h : vNat s x > 15) :
    exec (.skp x g) s = .next (raiseFault s (.keyIndexFault, vNat s x)) := by
  simp [exec, execSkp, readKey_fault h, vNat]

theorem exec_sknp_of_no_key {x : Reg} {s : State} (g : Nibble) (h : vNat s x > 15) :
    exec (.sknp x g) s = .next (raiseFault s (.keyIndexFault, vNat s x)) := by
  simp [exec, execSknp, readKey_fault h, vNat]

/-- A skip on the negated condition, read with the condition itself. -/
theorem skipIf_not_pc (c : Bool) (s : State) : (skipIf (!c) s).pc = if c then s.pc else s.pc + 2 := by
  cases c with
  | false | true => rfl

/-- Settles O54: a key's level is the condition of the skip, for SKNP negated; a value above 15 raises. -/
theorem keySkips : Obligations.KeySkips := by
  intro x g s
  refine ⟨fun k hk => ⟨?_, ?_⟩, fun hno => ⟨?_, ?_⟩⟩
  · exact ⟨_, exec_skp_of_key g hk, skipIf_pc _ s, skipIf_unchangedBut_pc _ s⟩
  · exact ⟨_, exec_sknp_of_key g hk, skipIf_not_pc _ s, skipIf_unchangedBut_pc _ s⟩
  · exact ⟨_, exec_skp_of_no_key g hno, raiseFault_raised s _ _⟩
  · exact ⟨_, exec_sknp_of_no_key g hno, raiseFault_raised s _ _⟩

end Sys2Proof.Machine
end

section
/-! PROOFS. The Step of a running instruction (`30_encoding.md` R90): what the handler leaves when it raises nothing,
after the tick. -/

namespace Sys2Proof.Machine

theorem decodeWord_wordAtPc_of_runs {i : Instr} {s : State} (h : Runs i s) : decodeWord (wordAtPc s) = i := by
  obtain ⟨-, -, hdecode⟩ := h
  exact congrArg Prod.fst (Except.ok.inj hdecode)

/-- A running instruction whose handler raises nothing completes its cycle with the tick. -/
theorem step_of_runs {i : Instr} {s u : State} (h : Runs i s)
    (hu : exec i (latchAndAdvance s (wordAtPc s)) = .next u) (hnone : u.fault = none) :
    step s = .next { tick u with stepped := true } := by
  have hdecode := decodeWord_wordAtPc_of_runs h
  obtain ⟨hrunning, hpc, -⟩ := h
  rw [← endCycle_none (s := s) hnone]
  exact step_of_exec hrunning hpc rfl (hdecode.symm ▸ hu)

end Sys2Proof.Machine
end

section
/-! PROOFS. Timers (`45_keypad_timers.md` R202): reading DT is one register write, and the tick follows it. -/

namespace Sys2Proof.Machine

theorem exec_ldVxDt (x : Reg) (s : State) : exec (.ldVxDt x) s = .next (writeV s x s.dt) := rfl

/-- Settles O56: the handler writes the DT it is entered with, which is the one before the tick of its cycle. -/
theorem readDelayTimerBeforeTick : Obligations.ReadDelayTimerBeforeTick := by
  refine ⟨fun x s => ⟨writeV s x s.dt, exec_ldVxDt x s, readV_writeV_same s x s.dt, writeV_frame s x s.dt⟩,
    fun x s hruns => ?_⟩
  have hstep := step_of_runs hruns (exec_ldVxDt x _) hruns.1
  exact ⟨_, hstep, readV_writeV_same _ x s.dt, countDown_toNat s.dt⟩

end Sys2Proof.Machine
end

section
/-! PROOFS. Which faults a handler raises and when (`60_exceptions.md` R221, R224, R225, R226): the fault kind it leaves
in the record, entered with no record, is one of its instruction's, and for CALL, RET, SKP and SKNP one condition on the
entry state decides it. -/

namespace Sys2Proof.Machine

/-- The kind of the recorded fault. -/
def faultCode (s : State) : Option Fault := s.fault.map FaultRecord.code

theorem faultCode_eq_some_iff {s : State} {c : Fault} :
    faultCode s = some c ↔ ∃ f, s.fault = some f ∧ f.code = c :=
  Option.map_eq_some_iff

theorem faultCode_of_no_fault {s : State} (h : s.fault = none) : faultCode s = none := by
  simp [faultCode, h]

/-! ### The instructions whose raise the entry state decides -/

theorem faultCode_of_exec_call {nnn : Addr12} {s t : State} (hs : s.fault = none)
    (h : exec (.call nnn) s = .next t) :
    faultCode t = if s.sp.val = 16 then some .stackOverflow else none := by
  split
  · next hfull =>
    rw [exec_call_of_pushPc_error (pushPc_full hfull)] at h
    cases h
    rfl
  · next hroom =>
    obtain ⟨u, hu⟩ := pushPc_ok (show s.sp.val < 16 by omega)
    rw [exec_call_of_pushPc_ok hu] at h
    cases h
    exact faultCode_of_no_fault ((pushPc_unchangedBut_stack_sp hu .fault (by simp)).trans hs)

theorem faultCode_of_exec_ret {g : BitVec 8} {s t : State} (hs : s.fault = none) (h : exec (.ret g) s = .next t) :
    faultCode t = if s.sp.val = 0 then some .stackUnderflow else none := by
  have hpop : conclude s (popPc s) = .next t := h
  split
  · next hempty =>
    rw [popPc_empty hempty] at hpop
    cases hpop
    rfl
  · next hframe =>
    obtain ⟨u, hu⟩ := popPc_ok (Nat.pos_of_ne_zero hframe)
    obtain ⟨-, -, -, hkept⟩ := popPc_eq_ok hu
    rw [hu] at hpop
    cases hpop
    rw [hkept]
    exact faultCode_of_no_fault hs

/-- SKP and SKNP read the key alike, so they raise alike. -/
theorem faultCode_of_exec_keySkip {i : Instr} {x : Reg} {g : Nibble} {s t : State} (hs : s.fault = none)
    (hi : i = .skp x g ∨ i = .sknp x g) (h : exec i s = .next t) :
    faultCode t = if vNat s x > 15 then some .keyIndexFault else none := by
  split
  · next hno =>
    have hraise : exec i s = .next (raiseFault s (.keyIndexFault, vNat s x)) := by
      rcases hi with rfl | rfl
      · exact exec_skp_of_no_key g hno
      · exact exec_sknp_of_no_key g hno
    rw [hraise] at h
    cases h
    rfl
  · next hkey =>
    have hskip : ∃ c, exec i s = .next (skipIf c s) := by
      rcases hi with rfl | rfl
      · exact ⟨_, exec_skp_of_key (k := ⟨vNat s x, by omega⟩) g rfl⟩
      · exact ⟨_, exec_sknp_of_key (k := ⟨vNat s x, by omega⟩) g rfl⟩
    obtain ⟨c, hc⟩ := hskip
    rw [hc] at h
    cases h
    exact faultCode_of_no_fault ((skipIf_fault c s).trans hs)

/-- Where a condition decides between one kind and none, no other kind is recorded. -/
theorem mem_singleton_of_faultCode_ite {s : State} {P : Prop} [Decidable P] {c d : Fault}
    (h : faultCode s = if P then some d else none) (hc : faultCode s = some c) : c ∈ [d] := by
  rw [h, Option.ite_none_right_eq_some] at hc
  exact List.mem_singleton.mpr (Option.some.inj hc.2).symm

/-! ### Every instruction raises only faults of its own -/

/-- A handler's end records the kind of the raise it executed, if its raise-free end records none. -/
theorem raise_of_faultCode_conclude {s t : State} {r : Except Raise State} {c : Fault}
    (h : conclude s r = .next t) (hok : ∀ u, r = .ok u → u.fault = none) (hc : faultCode t = some c) :
    ∃ e, r = .error e ∧ e.1 = c := by
  rcases conclude_cases h with hr | ⟨e, hr, rfl⟩
  · rw [faultCode_of_no_fault (hok t hr)] at hc
    cases hc
  · exact ⟨e, hr, Option.some.inj hc⟩

theorem code_of_stores {s t : State} {l : List (Nat × Byte)} {c : Fault} (hs : s.fault = none)
    (h : conclude s (storeAll l s) = .next t) (hc : faultCode t = some c) :
    c ∈ [Fault.memoryFault, .reservedWriteFault] := by
  obtain ⟨e, he, rfl⟩ := raise_of_faultCode_conclude h
    (fun u hu => (storeAll_unchangedBut_memory hu .fault (by simp)).trans hs) hc
  obtain ⟨p, -, ⟨-, rfl⟩ | ⟨-, rfl⟩⟩ := storeAll_eq_error he
  · simp
  · simp

theorem code_of_loads {s t : State} {base : Nat} {l : List Reg} {c : Fault} (hs : s.fault = none)
    (h : conclude s (loadRegs base l s) = .next t) (hc : faultCode t = some c) : c = .memoryFault := by
  obtain ⟨e, he, rfl⟩ := raise_of_faultCode_conclude h (fun u hu => by
    obtain ⟨-, hkept, -⟩ := loadRegs_eq_ok hu
    rw [hkept]
    exact hs) hc
  obtain ⟨r, -, -, rfl⟩ := loadRegs_eq_error he
  rfl

theorem code_of_draw {x y n : Reg} {s t : State} {c : Fault} (hs : s.fault = none)
    (h : exec (.drw x y n) s = .next t) (hc : faultCode t = some c) :
    c ∈ [Fault.memoryFault, .framebufferFault] := by
  obtain ⟨e, he, rfl⟩ := raise_of_faultCode_conclude h (fun u hu => by
    obtain ⟨-, -, ⟨hkept, -⟩, -⟩ := drawRows_eq_ok List.nodup_range hu
    rw [hkept]
    exact hs) hc
  obtain ⟨row, -, ⟨-, rfl⟩ | ⟨col, -, -, -, rfl⟩⟩ := drawRows_eq_error he
  · simp
  · simp

/-- An instruction that R221's table names under no fault leaves the record as it finds it. -/
theorem exec_keeps_fault {i : Instr} {s t : State} (hi : faultsOf i = []) (h : exec i s = .next t) :
    t.fault = s.fault := by
  cases i
  case ret | call | skp | sknp | drw | ldBVx | ldMemVx | ldVxMem => cases hi
  case seImm | sneImm | seReg | sneReg => cases h; exact skipIf_fault _ s
  case ldVxK x =>
    simp only [exec, execLdVxK] at h
    cases h
    cases firstPressed s with
    | some k => rfl
    | none => rfl
  all_goals cases h; rfl

/-- R221: a handler raises only the faults that the table names it under. -/
theorem mem_faultsOf_of_exec {i : Instr} {s t : State} {c : Fault} (hs : s.fault = none) (h : exec i s = .next t)
    (hc : faultCode t = some c) : c ∈ faultsOf i := by
  cases i
  case call nnn => exact mem_singleton_of_faultCode_ite (faultCode_of_exec_call hs h) hc
  case ret g => exact mem_singleton_of_faultCode_ite (faultCode_of_exec_ret hs h) hc
  case skp x g => exact mem_singleton_of_faultCode_ite (faultCode_of_exec_keySkip hs (.inl rfl) h) hc
  case sknp x g => exact mem_singleton_of_faultCode_ite (faultCode_of_exec_keySkip hs (.inr rfl) h) hc
  case ldBVx x => exact code_of_stores hs h hc
  case ldMemVx x => exact code_of_stores hs h hc
  case ldVxMem x => exact List.mem_singleton.mpr (code_of_loads hs h hc)
  case drw x y n => exact code_of_draw hs h hc
  all_goals
    rw [faultCode_of_no_fault ((exec_keeps_fault rfl h).trans hs)] at hc
    cases hc

theorem stackOverflow_mem_faultsOf {i : Instr} : .stackOverflow ∈ faultsOf i ↔ ∃ nnn, i = .call nnn := by
  cases i <;> simp [faultsOf]

theorem stackUnderflow_mem_faultsOf {i : Instr} : .stackUnderflow ∈ faultsOf i ↔ ∃ g, i = .ret g := by
  cases i <;> simp [faultsOf]

theorem keyIndexFault_mem_faultsOf {i : Instr} :
    .keyIndexFault ∈ faultsOf i ↔ ∃ x g, i = .skp x g ∨ i = .sknp x g := by
  cases i <;> simp [faultsOf]

theorem exec_stackOverflow_iff {i : Instr} {s t : State} (hs : s.fault = none) (h : exec i s = .next t) :
    faultCode t = some .stackOverflow ↔ (∃ nnn, i = .call nnn) ∧ s.sp.val = 16 := by
  constructor
  · intro hc
    obtain ⟨nnn, rfl⟩ := stackOverflow_mem_faultsOf.mp (mem_faultsOf_of_exec hs h hc)
    exact ⟨⟨nnn, rfl⟩, by simpa [faultCode_of_exec_call hs h] using hc⟩
  · rintro ⟨⟨nnn, rfl⟩, hfull⟩
    rw [faultCode_of_exec_call hs h, if_pos hfull]

theorem exec_stackUnderflow_iff {i : Instr} {s t : State} (hs : s.fault = none) (h : exec i s = .next t) :
    faultCode t = some .stackUnderflow ↔ (∃ g, i = .ret g) ∧ s.sp.val = 0 := by
  constructor
  · intro hc
    obtain ⟨g, rfl⟩ := stackUnderflow_mem_faultsOf.mp (mem_faultsOf_of_exec hs h hc)
    exact ⟨⟨g, rfl⟩, by simpa [faultCode_of_exec_ret hs h] using hc⟩
  · rintro ⟨⟨g, rfl⟩, hempty⟩
    rw [faultCode_of_exec_ret hs h, if_pos hempty]

theorem exec_keyIndexFault_iff {i : Instr} {s t : State} (hs : s.fault = none) (h : exec i s = .next t) :
    faultCode t = some .keyIndexFault ↔ ∃ x g, (i = .skp x g ∨ i = .sknp x g) ∧ vNat s x > 15 := by
  constructor
  · intro hc
    obtain ⟨x, g, hi⟩ := keyIndexFault_mem_faultsOf.mp (mem_faultsOf_of_exec hs h hc)
    exact ⟨x, g, hi, by simpa [faultCode_of_exec_keySkip hs hi h] using hc⟩
  · rintro ⟨x, g, hi, hno⟩
    rw [faultCode_of_exec_keySkip hs hi h, if_pos hno]

/-! ### The Step records what the handler raises -/

theorem endCycle_fault (s u : State) : (endCycle s u).fault = u.fault := by
  cases hu : u.fault with
  | none => rw [endCycle_none hu]; exact hu
  | some f => rw [endCycle_some hu]; exact hu

theorem exec_of_step_of_runs {i : Instr} {s t : State} (hruns : Runs i s) (h : step s = .next t) :
    ∃ u, exec i (latchAndAdvance s (wordAtPc s)) = .next u ∧ t.fault = u.fault := by
  obtain ⟨u, hu⟩ := exec_next i (latchAndAdvance s (wordAtPc s))
  have hdecode := decodeWord_wordAtPc_of_runs hruns
  obtain ⟨hrunning, hpc, -⟩ := hruns
  rw [step_of_exec hrunning hpc rfl (hdecode.symm ▸ hu)] at h
  cases h
  exact ⟨u, hu, endCycle_fault s u⟩

/-- Settles O26: the Step's record is the handler's, and the fetch and the advance that precede the handler change
neither `SP` nor a register. -/
theorem stackAndKeyFaultsExactly : Obligations.StackAndKeyFaultsExactly := by
  intro i s t hruns hstep
  obtain ⟨u, hu, hfault⟩ := exec_of_step_of_runs hruns hstep
  have hentry : (latchAndAdvance s (wordAtPc s)).fault = none := hruns.1
  simp only [hfault, ← faultCode_eq_some_iff]
  exact ⟨(exec_stackOverflow_iff hentry hu :), (exec_stackUnderflow_iff hentry hu :),
    (exec_keyIndexFault_iff hentry hu :)⟩

end Sys2Proof.Machine
end

section
/-! PROOFS. Program load (`70_reset_and_hazards.md` R263, R265): an admitted load pokes the bytes from 0x200 on and then
sets the host protocol's bit. -/

namespace Sys2Proof.Machine

theorem loadProgram_of_too_long {bytes : List Byte} (h : bytes.length > 3584) (s : State) :
    loadProgram bytes s = .refused .loadTooLarge :=
  if_pos h

theorem loadProgram_of_admitted {bytes : List Byte} {s : State} (hlen : bytes.length ≤ 3584)
    (hadm : loadAdmitted s = true) :
    loadProgram bytes s = .next { pokeBytes 0x200 bytes s with loaded := true } := by
  rw [loadProgram, if_neg (Nat.not_lt.mpr hlen), if_pos hadm]

theorem pokeBytes_unchangedBut_memory (a : Nat) (l : List Byte) (s : State) :
    UnchangedBut [.memory] s (pokeBytes a l s) := by
  obtain ⟨hshape, -, -, -⟩ := @pokeBytes_spec l a s
  intro p hp
  rw [hshape]
  cases p with
  | memory => simp at hp
  | regs | stack | keys | cells => exact fun _ => rfl
  | pc | index | sp | dt | st | latch | fault | loaded | stepped | draws => rfl

theorem setLoaded_unchangedBut_loaded (s : State) (b : Bool) : UnchangedBut [.loaded] s { s with loaded := b } := by
  intro p hp
  cases p with
  | loaded => simp at hp
  | regs | stack | keys | cells | memory => exact fun _ => rfl
  | pc | index | sp | dt | st | latch | fault | stepped | draws => rfl

/-- Settles O58: setting the bit touches no byte, so memory after the load is what `pokeBytes` leaves. -/
theorem loadPlacesProgramVerbatim : Obligations.LoadPlacesProgramVerbatim := by
  refine fun bytes s => ⟨fun hlong => loadProgram_of_too_long hlong s, fun hlen hadm => ?_⟩
  obtain ⟨-, hother, hplaced, -⟩ := @pokeBytes_spec bytes 0x200 s
  exact ⟨_, loadProgram_of_admitted hlen hadm, hplaced, hother, rfl,
    unchangedBut_trans (pokeBytes_unchangedBut_memory 0x200 bytes s) (setLoaded_unchangedBut_loaded _ true)⟩

end Sys2Proof.Machine
end

section
/-! PROOFS. Construction (`70_reset_and_hazards.md` R260): no byte is listed, so memory reads as `background`, which is
the glyph table at `GLYPH_BASE` and 0 elsewhere. -/

namespace Sys2Proof.Machine

/-- The whole glyph table lies in the reserved region (R6, D10). -/
theorem glyphBase_add_80_le : Config.glyphBase + 80 ≤ 0x200 := by
  have hbase : Config.glyphBase < 433 := Config.glyphBaseIndex.isLt
  omega

theorem background_glyph (i : Fin 80) : background (Config.glyphBase + i.val) = Config.glyphTable i := by
  have htable := glyphBase_add_80_le
  have hreserved : Config.glyphBase + i.val < 0x200 := by omega
  simp [background, hreserved]

theorem background_outside_glyphs {a : Nat} (h : ¬(Config.glyphBase ≤ a ∧ a < Config.glyphBase + 80)) :
    background a = 0 := by
  have hno : ¬(Config.glyphBase ≤ a ∧ a - Config.glyphBase < 80) := by omega
  rw [background, dif_neg hno, ite_self]

/-- Settles O1: memory is `background`, and every other value is a field of `State.construct`, fixed by it or drawn. -/
theorem constructionLeavesSpecifiedValues : Obligations.ConstructionLeavesSpecifiedValues := by
  intro d
  have hread : ∀ a, (State.construct d).mem.read a = background a := fun _ => rfl
  exact ⟨fun i => (hread _).trans (background_glyph i), fun a ha => (hread a).trans (background_outside_glyphs ha),
    glyphBase_add_80_le, construct_pc d, congrArg Fin.val (construct_sp d), construct_fault d, fun _ => rfl,
    construct_i d, construct_dt d, construct_st d, fun _ => rfl, fun _ => rfl, construct_opc d, fun _ => rfl⟩

end Sys2Proof.Machine
end

section
/-! PROOFS. Decoding and encoding (`30_encoding.md` §3): every word is the word of exactly one well-formed instruction. -/

namespace Sys2Proof

open Machine

theorem decodeWord_encode {i : Instr} (h : i.wf = true) : decodeWord (encode i) = i := by
  cases i with
  | cls g => exact Laws.DecodesBack.cls g h
  | ret g => exact Laws.DecodesBack.ret g h
  | jp nnn => exact Laws.DecodesBack.jp nnn h
  | call nnn => exact Laws.DecodesBack.call nnn h
  | seImm x kk => exact Laws.DecodesBack.seImm x kk h
  | sneImm x kk => exact Laws.DecodesBack.sneImm x kk h
  | seReg x y g => exact Laws.DecodesBack.seReg x y g h
  | ldImm x kk => exact Laws.DecodesBack.ldImm x kk h
  | addImm x kk => exact Laws.DecodesBack.addImm x kk h
  | ldReg x y => exact Laws.DecodesBack.ldReg x y h
  | orReg x y => exact Laws.DecodesBack.orReg x y h
  | andReg x y => exact Laws.DecodesBack.andReg x y h
  | xorReg x y => exact Laws.DecodesBack.xorReg x y h
  | addReg x y => exact Laws.DecodesBack.addReg x y h
  | sub x y => exact Laws.DecodesBack.sub x y h
  | shr x g => exact Laws.DecodesBack.shr x g h
  | subn x y => exact Laws.DecodesBack.subn x y h
  | shl x g => exact Laws.DecodesBack.shl x g h
  | sneReg x y g => exact Laws.DecodesBack.sneReg x y g h
  | ldI nnn => exact Laws.DecodesBack.ldI nnn h
  | jpV0 nnn => exact Laws.DecodesBack.jpV0 nnn h
  | rnd x kk => exact Laws.DecodesBack.rnd x kk h
  | drw x y n => exact Laws.DecodesBack.drw x y n h
  | skp x g => exact Laws.DecodesBack.skp x g h
  | sknp x g => exact Laws.DecodesBack.sknp x g h
  | ldVxDt x => exact Laws.DecodesBack.ldVxDt x h
  | ldVxK x => exact Laws.DecodesBack.ldVxK x h
  | ldDtVx x => exact Laws.DecodesBack.ldDtVx x h
  | ldStVx x => exact Laws.DecodesBack.ldStVx x h
  | addIVx x => exact Laws.DecodesBack.addIVx x h
  | ldFVx x => exact Laws.DecodesBack.ldFVx x h
  | ldBVx x => exact Laws.DecodesBack.ldBVx x h
  | ldMemVx x => exact Laws.DecodesBack.ldMemVx x h
  | ldVxMem x => exact Laws.DecodesBack.ldVxMem x h
  | nop0 g => exact Laws.DecodesBack.nop0 g h
  | nop8 g => exact Laws.DecodesBack.nop8 g h
  | nopE g => exact Laws.DecodesBack.nopE g h
  | nopF g => exact Laws.DecodesBack.nopF g h

theorem decode_encodeBytes_append (i : Instr) (rest : List Byte) :
    decode (encodeBytes i ++ rest) = .ok (decodeWord (encode i), rest) := by
  simp [encodeBytes, bytesOfWord, decode]

/-- Settles O12: the two bytes make the word again, and the word of a well-formed instruction decodes to it. -/
theorem decodeInvertsEncode : Obligations.DecodeInvertsEncode := by
  intro i rest hwf
  rw [decode_encodeBytes_append, decodeWord_encode hwf]

/-! ### The word of what a word decodes to -/

theorem formatNNN_of_fields {w : Word} {op : Nibble} (hop : opField w = op) : formatNNN op (nnnField w) = w := by
  rw [← hop, formatNNN_fields]

theorem formatXKK_of_fields {w : Word} {op : Nibble} {kk : Byte} (hop : opField w = op) (hkk : kkField w = kk) :
    formatXKK op (xField w) kk = w := by
  rw [← hop, ← hkk, formatXKK_fields]

theorem formatXYN_of_fields {w : Word} {op n : Nibble} (hop : opField w = op) (hn : nField w = n) :
    formatXYN op (xField w) (midField w) n = w := by
  rw [← hop, ← hn, formatXYN_fields]

theorem formatNOX_of_fields {w : Word} {n : Nibble} (hop : opField w = 0x0) (hn : nField w = n) :
    formatNOX (highField w) n = w := by
  rw [← hn, formatNOX_fields hop]

theorem encode_decodeFamily0 {w : Word} (h : opField w = 0x0) : encode (decodeFamily0 w) = w := by
  unfold decodeFamily0
  split
  · next hn => exact formatNOX_of_fields h hn
  · next hn => exact formatNOX_of_fields h hn
  · exact formatNNN_of_fields h

theorem encode_decodeFamily8 {w : Word} (h : opField w = 0x8) : encode (decodeFamily8 w) = w := by
  unfold decodeFamily8
  split
  case h_10 => exact formatNNN_of_fields h
  all_goals next hn => exact formatXYN_of_fields h hn

theorem encode_decodeFamilyE {w : Word} (h : opField w = 0xE) : encode (decodeFamilyE w) = w := by
  unfold decodeFamilyE
  split
  · next hn => exact formatXYN_of_fields h hn
  · next hn => exact formatXYN_of_fields h hn
  · exact formatNNN_of_fields h

theorem encode_decodeFamilyF {w : Word} (h : opField w = 0xF) : encode (decodeFamilyF w) = w := by
  unfold decodeFamilyF
  split
  case h_10 => exact formatNNN_of_fields h
  all_goals next hkk => exact formatXKK_of_fields h hkk

/-- The last arm of the primary dispatch is key 0xF. -/
theorem eq_xF_of_ne {n : Nibble} (h0 : n ≠ 0x0) (h1 : n ≠ 0x1) (h2 : n ≠ 0x2) (h3 : n ≠ 0x3) (h4 : n ≠ 0x4)
    (h5 : n ≠ 0x5) (h6 : n ≠ 0x6) (h7 : n ≠ 0x7) (h8 : n ≠ 0x8) (h9 : n ≠ 0x9) (hA : n ≠ 0xA) (hB : n ≠ 0xB)
    (hC : n ≠ 0xC) (hD : n ≠ 0xD) (hE : n ≠ 0xE) : n = 0xF := by
  bv_omega

theorem encode_decodeWord (w : Word) : encode (decodeWord w) = w := by
  unfold decodeWord
  split
  case h_1 h => exact encode_decodeFamily0 h
  case h_9 h => exact encode_decodeFamily8 h
  case h_15 h => exact encode_decodeFamilyE h
  case h_16 h0 h1 h2 h3 h4 h5 h6 h7 h8 h9 hA hB hC hD hE =>
    exact encode_decodeFamilyF (eq_xF_of_ne h0 h1 h2 h3 h4 h5 h6 h7 h8 h9 hA hB hC hD hE)
  case h_2 h | h_3 h | h_11 h | h_12 h => exact formatNNN_of_fields h
  case h_4 h | h_5 h | h_7 h | h_8 h | h_13 h => exact formatXKK_of_fields h rfl
  case h_6 h | h_10 h | h_14 h => exact formatXYN_of_fields h rfl

/-! ### Misses -/

theorem isMiss_decodeFamily0 (w : Word) : isMiss (decodeFamily0 w) = !hasKey0 (nField w) := by
  unfold decodeFamily0
  split <;> simp_all [isMiss]

theorem isMiss_decodeFamily8 (w : Word) : isMiss (decodeFamily8 w) = !hasKey8 (nField w) := by
  unfold decodeFamily8
  split <;> simp_all [isMiss]

theorem isMiss_decodeFamilyE (w : Word) : isMiss (decodeFamilyE w) = !hasKeyE (nField w) := by
  unfold decodeFamilyE
  split <;> simp_all [isMiss]

theorem isMiss_decodeFamilyF (w : Word) : isMiss (decodeFamilyF w) = !hasKeyF (kkField w) := by
  unfold decodeFamilyF
  split <;> simp_all [isMiss]

/-- The four ways in which the two-level dispatch finds no key (R79). -/
theorem isMiss_decodeWord_iff (w : Word) : isMiss (decodeWord w) = true ↔
    (opField w = 0x0 ∧ hasKey0 (nField w) = false) ∨ (opField w = 0x8 ∧ hasKey8 (nField w) = false) ∨
    (opField w = 0xE ∧ hasKeyE (nField w) = false) ∨ (opField w = 0xF ∧ hasKeyF (kkField w) = false) := by
  unfold decodeWord
  split
  case h_1 h => rw [isMiss_decodeFamily0, h]; simp
  case h_9 h => rw [isMiss_decodeFamily8, h]; simp
  case h_15 h => rw [isMiss_decodeFamilyE, h]; simp
  case h_16 h0 h1 h2 h3 h4 h5 h6 h7 h8 h9 hA hB hC hD hE =>
    rw [isMiss_decodeFamilyF, eq_xF_of_ne h0 h1 h2 h3 h4 h5 h6 h7 h8 h9 hA hB hC hD hE]; simp
  all_goals next h => rw [h]; simp [isMiss]

theorem opField_eq_iff {w : Word} {op : Nibble} : opField w = op ↔ w.toNat / 4096 = op.toNat := by
  have hlt : w.toNat < 65536 := w.isLt
  rw [← BitVec.toNat_inj, opField, slice_toNat]
  omega

theorem nField_toNat (w : Word) : (nField w).toNat = w.toNat % 16 := by
  rw [nField, slice_toNat]
  omega

theorem kkField_toNat (w : Word) : (kkField w).toNat = w.toNat % 256 := by
  rw [kkField, slice_toNat]
  omega

theorem hasKey0_eq_false_iff {n : Nibble} : hasKey0 n = false ↔ n.toNat ∉ [0x0, 0xE] := by
  simp [hasKey0, ← BitVec.toNat_inj]

theorem hasKey8_eq_false_iff {n : Nibble} : hasKey8 n = false ↔ n.toNat ∈ [0x8, 0x9, 0xA, 0xB, 0xC, 0xD, 0xF] := by
  revert n
  decide

theorem hasKeyE_eq_false_iff {n : Nibble} : hasKeyE n = false ↔ n.toNat ∉ [0x1, 0xE] := by
  simp [hasKeyE, ← BitVec.toNat_inj]

theorem hasKeyF_eq_false_iff {kk : Byte} :
    hasKeyF kk = false ↔ kk.toNat ∉ [0x07, 0x0A, 0x15, 0x18, 0x1E, 0x29, 0x33, 0x55, 0x65] := by
  simp [hasKeyF, ← BitVec.toNat_inj]

theorem isMiss_decodeWord_iff_missWord (w : Word) : isMiss (decodeWord w) = true ↔ missWord w.toNat := by
  simp only [isMiss_decodeWord_iff, hasKey0_eq_false_iff, hasKey8_eq_false_iff, hasKeyE_eq_false_iff,
    hasKeyF_eq_false_iff, opField_eq_iff, nField_toNat, kkField_toNat]
  rfl

theorem exec_of_isMiss {i : Instr} (h : isMiss i = true) (s : State) : exec i s = .next s := by
  cases i
  case nop0 | nop8 | nopE | nopF => rfl
  all_goals cases h

/-- Settles O14: a word misses when its key is in no secondary table, and a miss is a no-op. -/
theorem dispatchMissExactlyListedWords : Obligations.DispatchMissExactlyListedWords :=
  fun w => ⟨isMiss_decodeWord_iff_missWord w,
    fun hmiss s => exec_of_isMiss ((isMiss_decodeWord_iff_missWord w).mpr hmiss) s⟩

/-! ### Every word is one instruction -/

theorem wf_of_isMiss_eq_false {i : Instr} (h : isMiss i = false) : i.wf = true := by
  cases i
  case nop0 | nop8 | nopE | nopF => cases h
  all_goals rfl

/-- A dispatch-miss row whose own word misses holds a key that its family's table lacks. -/
theorem wf_of_isMiss_decodeWord_encode {i : Instr} (hi : isMiss i = true)
    (h : isMiss (decodeWord (encode i)) = true) : i.wf = true := by
  rw [isMiss_decodeWord_iff] at h
  cases i
  case nop0 g | nop8 g | nopE g | nopF g => simpa [encode, Instr.wf] using h
  all_goals cases hi

theorem wf_decodeWord (w : Word) : (decodeWord w).wf = true := by
  cases hmiss : isMiss (decodeWord w) with
  | false => exact wf_of_isMiss_eq_false hmiss
  | true => exact wf_of_isMiss_decodeWord_encode hmiss (by rwa [encode_decodeWord])

/-- Settles O13: `encode` and `decodeWord` are inverse to each other on well-formed instructions. -/
theorem everyWordIsOneInstruction : Obligations.EveryWordIsOneInstruction := by
  refine fun w => ⟨wf_decodeWord w, fun i hwf => ⟨fun hi => ?_, fun hi => ?_⟩⟩
  · rw [← hi, decodeWord_encode hwf]
  · rw [hi, encode_decodeWord]

/-! ### The opcode map, written as numbers -/

theorem wordNNN_eq (op : Nibble) (nnn : Addr12) : wordNNN op.toNat nnn = formatNNN op nnn := by
  apply BitVec.eq_of_toNat_eq
  rw [wordNNN, formatNNN, append_toNat, BitVec.toNat_ofNat]
  omega

theorem wordXKK_eq (op : Nibble) (x : Reg) (kk : Byte) : wordXKK op.toNat x kk.toNat = formatXKK op x kk := by
  apply BitVec.eq_of_toNat_eq
  rw [wordXKK, formatXKK_toNat, BitVec.toNat_ofNat]
  omega

theorem wordXYN_eq (op : Nibble) (x y : Reg) (n : Nibble) :
    wordXYN op.toNat x y n.toNat = formatXYN op x (nibble y) n := by
  apply BitVec.eq_of_toNat_eq
  rw [wordXYN, formatXYN_toNat, BitVec.toNat_ofNat, nibble_toNat]
  omega

theorem wordNOX_eq (g : BitVec 8) (n : Nibble) : wordNOX g n.toNat = formatNOX g n := by
  apply BitVec.eq_of_toNat_eq
  rw [wordNOX, formatNOX_toNat, BitVec.toNat_ofNat]
  omega

/-- A word that is the word of a well-formed instruction selects it. -/
theorem decodeWord_of_eq_encode {w : Word} {i : Instr} (hw : w = encode i) (hwf : i.wf = true) : decodeWord w = i :=
  hw ▸ decodeWord_encode hwf

/-- Settles O15: each number is the word of the instruction it should select. -/
theorem opcodeMapSelectsInstructions : Obligations.OpcodeMapSelectsInstructions := by
  refine ⟨fun nnn => ⟨?_, ?_, ?_, ?_⟩, fun x kk => ⟨?_, ?_, ?_, ?_, ?_⟩, fun x y n => ⟨?_, ?_, ?_⟩,
    fun g => ⟨?_, ?_⟩, fun x y => ⟨?_, ?_, ?_, ?_, ?_, ?_, ?_, ?_, ?_, ?_, ?_⟩,
    fun x => ⟨?_, ?_, ?_, ?_, ?_, ?_, ?_, ?_, ?_⟩, fun w => (isMiss_decodeWord_iff_missWord w).mpr⟩
  · exact decodeWord_of_eq_encode (wordNNN_eq 0x1 nnn) rfl
  · exact decodeWord_of_eq_encode (wordNNN_eq 0x2 nnn) rfl
  · exact decodeWord_of_eq_encode (wordNNN_eq 0xA nnn) rfl
  · exact decodeWord_of_eq_encode (wordNNN_eq 0xB nnn) rfl
  · exact decodeWord_of_eq_encode (wordXKK_eq 0x3 x kk) rfl
  · exact decodeWord_of_eq_encode (wordXKK_eq 0x4 x kk) rfl
  · exact decodeWord_of_eq_encode (wordXKK_eq 0x6 x kk) rfl
  · exact decodeWord_of_eq_encode (wordXKK_eq 0x7 x kk) rfl
  · exact decodeWord_of_eq_encode (wordXKK_eq 0xC x kk) rfl
  · exact decodeWord_of_eq_encode (wordXYN_eq 0x5 x y (nibble n)) rfl
  · exact decodeWord_of_eq_encode (wordXYN_eq 0x9 x y (nibble n)) rfl
  · exact decodeWord_of_eq_encode (wordXYN_eq 0xD x y (nibble n)) rfl
  · exact decodeWord_of_eq_encode (wordNOX_eq g 0x0) rfl
  · exact decodeWord_of_eq_encode (wordNOX_eq g 0xE) rfl
  · exact decodeWord_of_eq_encode (wordXYN_eq 0x8 x y 0x0) rfl
  · exact decodeWord_of_eq_encode (wordXYN_eq 0x8 x y 0x1) rfl
  · exact decodeWord_of_eq_encode (wordXYN_eq 0x8 x y 0x2) rfl
  · exact decodeWord_of_eq_encode (wordXYN_eq 0x8 x y 0x3) rfl
  · exact decodeWord_of_eq_encode (wordXYN_eq 0x8 x y 0x4) rfl
  · exact decodeWord_of_eq_encode (wordXYN_eq 0x8 x y 0x5) rfl
  · exact decodeWord_of_eq_encode (wordXYN_eq 0x8 x y 0x6) rfl
  · exact decodeWord_of_eq_encode (wordXYN_eq 0x8 x y 0x7) rfl
  · exact decodeWord_of_eq_encode (wordXYN_eq 0x8 x y 0xE) rfl
  · exact decodeWord_of_eq_encode (wordXYN_eq 0xE x y 0xE) rfl
  · exact decodeWord_of_eq_encode (wordXYN_eq 0xE x y 0x1) rfl
  · exact decodeWord_of_eq_encode (wordXKK_eq 0xF x 0x07) rfl
  · exact decodeWord_of_eq_encode (wordXKK_eq 0xF x 0x0A) rfl
  · exact decodeWord_of_eq_encode (wordXKK_eq 0xF x 0x15) rfl
  · exact decodeWord_of_eq_encode (wordXKK_eq 0xF x 0x18) rfl
  · exact decodeWord_of_eq_encode (wordXKK_eq 0xF x 0x1E) rfl
  · exact decodeWord_of_eq_encode (wordXKK_eq 0xF x 0x29) rfl
  · exact decodeWord_of_eq_encode (wordXKK_eq 0xF x 0x33) rfl
  · exact decodeWord_of_eq_encode (wordXKK_eq 0xF x 0x55) rfl
  · exact decodeWord_of_eq_encode (wordXKK_eq 0xF x 0x65) rfl

/-- Settles O16: twelve closed evaluations of the decoder. -/
theorem specWordsDecode : Obligations.SpecWordsDecode :=
  ⟨rfl, rfl, rfl, rfl, rfl, rfl, rfl, rfl, rfl, rfl, rfl, rfl⟩

/-! ### Ignored bits and canonical words -/

theorem wf_canonical {i : Instr} (h : i.wf = true) : (canonical i).wf = true := by
  cases i
  case nop0 | nop8 | nopE | nopF => exact h
  all_goals rfl

/-- Only bits that the handler ignores are changed (R82, R83). -/
theorem exec_canonical (i : Instr) (s : State) : exec (canonical i) s = exec i s := by
  cases i <;> rfl

/-- Settles O18: the assembled word is that of the canonical form, which is well-formed too. -/
theorem assembledWordRunsAlike : Obligations.AssembledWordRunsAlike := by
  intro i s hwf
  have hdecode : decodeWord (assemble i) = canonical i := decodeWord_encode (wf_canonical hwf)
  exact ⟨hdecode, by rw [hdecode, exec_canonical]⟩

theorem nField_eq_iff {w : Word} {n : Nibble} : nField w = n ↔ w.toNat % 16 = n.toNat := by
  rw [← BitVec.toNat_inj, nField_toNat]

theorem xField_val (w : Word) : (xField w).val = w.toNat / 256 % 16 :=
  slice_toNat w 8 4

theorem yField_val (w : Word) : (yField w).val = w.toNat / 16 % 16 :=
  slice_toNat w 4 4

theorem xField_congr {w w' : Word} (h : w.toNat / 256 = w'.toNat / 256) : xField w = xField w' :=
  Fin.ext (by rw [xField_val, xField_val, h])

theorem yField_congr {w w' : Word} (h : w.toNat / 16 = w'.toNat / 16) : yField w = yField w' :=
  Fin.ext (by rw [yField_val, yField_val, h])

theorem family_congr {w w' : Word} {k : Nat} (hop : w.toNat / 4096 = k) (h : w.toNat / 256 = w'.toNat / 256) :
    w'.toNat / 4096 = k := by
  omega

/-- A word with a family and a key `N` selects the instruction whose word has them and the word's own fields between. -/
theorem decodeWord_of_key {w : Word} (op n : Nibble) {i : Instr} (hop : w.toNat / 4096 = op.toNat)
    (hn : w.toNat % 16 = n.toNat) (hi : encode i = formatXYN op (xField w) (midField w) n) (hwf : i.wf = true) :
    decodeWord w = i := by
  rw [← formatXYN_of_fields (opField_eq_iff.mpr hop) (nField_eq_iff.mpr hn), ← hi, decodeWord_encode hwf]

/-- The same for family 0x0, whose eight middle bits are all ignored. -/
theorem decodeWord_of_key0 {w : Word} (n : Nibble) {i : Instr} (hop : w.toNat / 4096 = 0x0)
    (hn : w.toNat % 16 = n.toNat) (hi : encode i = formatNOX (highField w) n) (hwf : i.wf = true) :
    decodeWord w = i := by
  rw [← formatNOX_of_fields (opField_eq_iff.mpr hop) (nField_eq_iff.mpr hn), ← hi, decodeWord_encode hwf]

section
variable {w : Word}

theorem decodeWord_cls (hop : w.toNat / 4096 = 0x0) (hn : w.toNat % 16 = 0x0) : decodeWord w = .cls (highField w) :=
  decodeWord_of_key0 0x0 hop hn rfl rfl

theorem decodeWord_ret (hop : w.toNat / 4096 = 0x0) (hn : w.toNat % 16 = 0xE) : decodeWord w = .ret (highField w) :=
  decodeWord_of_key0 0xE hop hn rfl rfl

theorem decodeWord_sknp (hop : w.toNat / 4096 = 0xE) (hn : w.toNat % 16 = 0x1) :
    decodeWord w = .sknp (xField w) (midField w) :=
  decodeWord_of_key 0xE 0x1 hop hn rfl rfl

theorem decodeWord_skp (hop : w.toNat / 4096 = 0xE) (hn : w.toNat % 16 = 0xE) :
    decodeWord w = .skp (xField w) (midField w) :=
  decodeWord_of_key 0xE 0xE hop hn rfl rfl

theorem decodeWord_shr (hop : w.toNat / 4096 = 0x8) (hn : w.toNat % 16 = 0x6) :
    decodeWord w = .shr (xField w) (midField w) :=
  decodeWord_of_key 0x8 0x6 hop hn rfl rfl

theorem decodeWord_shl (hop : w.toNat / 4096 = 0x8) (hn : w.toNat % 16 = 0xE) :
    decodeWord w = .shl (xField w) (midField w) :=
  decodeWord_of_key 0x8 0xE hop hn rfl rfl

theorem decodeWord_seReg (hop : w.toNat / 4096 = 0x5) : decodeWord w = .seReg (xField w) (yField w) (nField w) :=
  decodeWord_of_key 0x5 (nField w) hop (nField_toNat w).symm rfl rfl

theorem decodeWord_sneReg (hop : w.toNat / 4096 = 0x9) : decodeWord w = .sneReg (xField w) (yField w) (nField w) :=
  decodeWord_of_key 0x9 (nField w) hop (nField_toNat w).symm rfl rfl

end

/-- Settles O17: the words of each clause select the same handler with the same operands. -/
theorem ignoredBitsHaveNoEffect : Obligations.IgnoredBitsHaveNoEffect := by
  intro w w' s h
  simp only [List.mem_cons, List.not_mem_nil, or_false] at h
  obtain ⟨hop, hop', hn | hn, hsame⟩ | ⟨hop, hx, hn | hn, hsame⟩ | ⟨hop, hx, hn | hn, hsame⟩ | ⟨hop | hop, hxy⟩ := h
  · rw [decodeWord_cls hop hn, decodeWord_cls hop' (hsame ▸ hn)]; rfl
  · rw [decodeWord_ret hop hn, decodeWord_ret hop' (hsame ▸ hn)]; rfl
  · rw [decodeWord_sknp hop hn, decodeWord_sknp (family_congr hop hx) (hsame ▸ hn), xField_congr hx]; rfl
  · rw [decodeWord_skp hop hn, decodeWord_skp (family_congr hop hx) (hsame ▸ hn), xField_congr hx]; rfl
  · rw [decodeWord_shr hop hn, decodeWord_shr (family_congr hop hx) (hsame ▸ hn), xField_congr hx]; rfl
  · rw [decodeWord_shl hop hn, decodeWord_shl (family_congr hop hx) (hsame ▸ hn), xField_congr hx]; rfl
  · have hx : w.toNat / 256 = w'.toNat / 256 := by omega
    rw [decodeWord_seReg hop, decodeWord_seReg (family_congr hop hx), xField_congr hx, yField_congr hxy]; rfl
  · have hx : w.toNat / 256 = w'.toNat / 256 := by omega
    rw [decodeWord_sneReg hop, decodeWord_sneReg (family_congr hop hx), xField_congr hx, yField_congr hxy]; rfl

end Sys2Proof
end

section
/-! PROOFS. What the remaining updates leave unchanged, and what each handler may write (`10_state.md` R22, R57;
`60_exceptions.md` R221). -/

namespace Sys2Proof.Machine

theorem unchangedBut_refl (ps : List Part) (s : State) : UnchangedBut ps s s :=
  fun p _ => unchanged_refl s p

theorem unchangedBut_mono {ps qs : List Part} {s t : State} (hsub : ps ⊆ qs) (h : UnchangedBut ps s t) :
    UnchangedBut qs s t :=
  fun p hp => h p fun hps => hp (hsub hps)

theorem regsBut_of_unchangedBut {ps : List Part} {s t : State} (rs : List Reg) (h : UnchangedBut ps s t)
    (hregs : .regs ∉ ps) : RegsBut rs s t :=
  fun r _ => h .regs hregs r

theorem setDt_unchangedBut_dt (s : State) (b : Byte) : UnchangedBut [.dt] s (setDt s b) := by
  intro p hp
  cases p with
  | dt => simp at hp
  | regs | stack | keys | cells | memory => exact fun _ => rfl
  | pc | index | sp | st | latch | fault | loaded | stepped | draws => rfl

theorem setSt_unchangedBut_st (s : State) (b : Byte) : UnchangedBut [.st] s (setSt s b) := by
  intro p hp
  cases p with
  | st => simp at hp
  | regs | stack | keys | cells | memory => exact fun _ => rfl
  | pc | index | sp | dt | latch | fault | loaded | stepped | draws => rfl

theorem draw8_unchangedBut_draws (s : State) : UnchangedBut [.draws] s (draw8 s).2 := by
  intro p hp
  cases p with
  | draws => simp at hp
  | regs | stack | keys | cells | memory => exact fun _ => rfl
  | pc | index | sp | dt | st | latch | fault | loaded | stepped => rfl

theorem popPc_unchangedBut_sp_pc {s t : State} (h : popPc s = .ok t) : UnchangedBut [.sp, .pc] s t := by
  obtain ⟨-, -, -, ht⟩ := popPc_eq_ok h
  intro p hp
  rw [ht]
  cases p with
  | sp | pc => simp at hp
  | regs | stack | keys | cells | memory => exact fun _ => rfl
  | index | dt | st | latch | fault | loaded | stepped | draws => rfl

theorem loadRegs_frame {base : Nat} {l : List Reg} {s t : State} (h : loadRegs base l s = .ok t) :
    UnchangedBut [.regs] s t ∧ RegsBut l s t := by
  obtain ⟨-, ht, hregs⟩ := loadRegs_eq_ok h
  refine ⟨fun p hp => ?_, fun r hr => by rw [hregs r, if_neg hr]⟩
  rw [ht]
  cases p with
  | regs => simp at hp
  | stack | keys | cells | memory => exact fun _ => rfl
  | pc | index | sp | dt | st | latch | fault | loaded | stepped | draws => rfl

theorem DrawFrame.regsBut {s t : State} (h : DrawFrame s t) : RegsBut [flagReg] s t := by
  obtain ⟨-, hregs⟩ := h
  exact fun r hr => hregs r (List.ne_of_not_mem_cons hr)

theorem DrawFrame.unchangedBut {s t : State} (h : DrawFrame s t) : UnchangedBut [.regs, .cells] s t := by
  obtain ⟨ht, -⟩ := h
  intro p hp
  rw [ht]
  cases p with
  | regs | cells => simp at hp
  | stack | keys | memory => exact fun _ => rfl
  | pc | index | sp | dt | st | latch | fault | loaded | stepped | draws => rfl

theorem setFlag_drawFrame (s : State) (f : Byte) : DrawFrame s (setFlag s f) :=
  ⟨rfl, fun r hr => by rw [readV_setFlag, if_neg hr]⟩

theorem drawRows_after_setFlag_drawFrame {xPos yPos : Nat} {rows : List Nat} {s t : State} {f : Byte}
    (hn : rows.Nodup) (h : drawRows xPos yPos rows (setFlag s f) = .ok t) : DrawFrame s t := by
  obtain ⟨-, -, hframe, -⟩ := drawRows_eq_ok hn h
  exact (setFlag_drawFrame s f).trans hframe

/-! ### RET, JP, RND and LD Vx,K -/

theorem exec_ret_of_popPc_ok {g : BitVec 8} {s t : State} (h : popPc s = .ok t) : exec (.ret g) s = .next t := by
  simp [exec, execRet, h]

theorem exec_ret_of_popPc_error {g : BitVec 8} {s : State} {e : Raise} (h : popPc s = .error e) :
    exec (.ret g) s = .next (raiseFault s e) := by
  simp [exec, execRet, h]

/-- Settles O30: with a frame the pop goes through, and with none it raises. -/
theorem returnPopsTheStack : Obligations.ReturnPopsTheStack := by
  intro g s
  refine ⟨fun k hk => ?_, fun hempty => ?_⟩
  · obtain ⟨t, ht⟩ := popPc_ok (s := s) (by omega)
    obtain ⟨-, hsp, hpc, -⟩ := popPc_eq_ok ht
    exact ⟨t, exec_ret_of_popPc_ok ht, by omega, hpc k (by omega), popPc_unchangedBut_sp_pc ht⟩
  · exact ⟨_, exec_ret_of_popPc_error (popPc_empty hempty), raiseFault_raised s _ _⟩

/-- V0 is at most 255 and NNN at most 4095, so the 16-bit sum is exact. -/
theorem offsetTarget_toNat (s : State) (nnn : Addr12) : (offsetTarget s nnn).toNat = vNat s 0 + nnn.toNat := by
  have hbyte : vNat s 0 < 256 := (readV s 0).isLt
  have hnnn : nnn.toNat < 4096 := nnn.isLt
  have hv : ((readV s 0).setWidth 16).toNat = vNat s 0 := BitVec.toNat_setWidth_of_le (by decide)
  have hn : (nnn.setWidth 16).toNat = nnn.toNat := BitVec.toNat_setWidth_of_le (by decide)
  rw [offsetTarget, BitVec.toNat_add, hv, hn]
  omega

/-- Settles O31: both jumps are one write of PC. -/
theorem jumpsSetPc : Obligations.JumpsSetPc :=
  fun nnn s => ⟨⟨_, rfl, targetOf_toNat nnn, setPc_unchangedBut_pc s _⟩,
    ⟨_, rfl, offsetTarget_toNat s nnn, setPc_unchangedBut_pc s _⟩⟩

/-- The frame of RND: the counter of draws, then one register. -/
theorem draw8_writeV_frame (s : State) (x : Reg) (b : Byte) :
    RegsBut [x] s (writeV (draw8 s).2 x b) ∧ UnchangedBut [.regs, .draws] s (writeV (draw8 s).2 x b) :=
  ⟨writeV_regsBut (draw8 s).2 x b,
    unchangedBut_mono (by simp) (unchangedBut_trans (draw8_unchangedBut_draws s) (writeV_unchangedBut_regs _ x b))⟩

/-- Settles O43: the byte written is the draw masked, whatever the draw is. -/
theorem randomByteIsMasked : Obligations.RandomByteIsMasked := by
  intro x kk s
  have hwritten : readV (writeV (draw8 s).2 x ((draw8 s).1 &&& kk)) x = Config.draw8 s.draws &&& kk :=
    readV_writeV_same _ _ _
  refine ⟨_, rfl, fun b => ?_, fun hkk => ?_, rfl, draw8_writeV_frame s x _⟩
  · rw [hwritten, BitVec.getLsbD_and]
  · rw [vNat, hwritten, hkk]
    exact congrArg BitVec.toNat BitVec.and_zero

theorem exec_ldVxK_of_pressed {x k : Reg} {s : State} (h : firstPressed s = some k) :
    exec (.ldVxK x) s = .next (writeV s x (BitVec.ofNat 8 k.val)) := by
  simp [exec, execLdVxK, h]

theorem exec_ldVxK_of_none {x : Reg} {s : State} (h : firstPressed s = none) :
    exec (.ldVxK x) s = .next (setPc s (s.pc - 2)) := by
  simp [exec, execLdVxK, h]

/-- The lowest pressed key is the one the scan finds. -/
theorem eq_of_firstPressed {s : State} {j k : Reg} (h : firstPressed s = some j) (hk : keyAt s k = true)
    (hlow : ∀ i : Reg, i < k → keyAt s i = false) : j = k := by
  obtain ⟨hj, hlow'⟩ := firstPressed_some h
  rcases lt_trichotomy j k with hlt | heq | hgt
  · simp [hlow j hlt] at hj
  · exact heq
  · simp [hlow' k hgt] at hk

/-- Settles O55: the scan of the keys either finds the lowest pressed one or finds none. -/
theorem waitForKeyTakesLowest : Obligations.WaitForKeyTakesLowest := by
  intro x s
  cases hscan : firstPressed s with
  | some j =>
    refine ⟨_, exec_ldVxK_of_pressed hscan, fun k hk hlow => ?_, fun hnone => ?_⟩
    · obtain rfl := eq_of_firstPressed hscan hk hlow
      have hsmall : j.val % 2 ^ 8 = j.val := Nat.mod_eq_of_lt (by omega)
      exact ⟨by rw [vNat_writeV_same, BitVec.toNat_ofNat, hsmall], writeV_frame s x _⟩
    · rw [firstPressed_none.mpr hnone] at hscan
      cases hscan
  | none =>
    refine ⟨_, exec_ldVxK_of_none hscan, fun k hk => ?_, fun _ => ⟨rfl, setPc_unchangedBut_pc s _⟩⟩
    rw [firstPressed_none.mp hscan k] at hk
    cases hk

/-! ### Every handler -/

/-- A handler that raised nothing wrote only what the tables list for its instruction. -/
def HandlerFrame (i : Instr) (s t : State) : Prop :=
  UnchangedBut (partsWritten i) s t ∧ RegsBut (regsWritten i) s t

/-- A handler's end: its own writes, or the record of one of its own faults. -/
def HandlerEnd (i : Instr) (s t : State) : Prop :=
  HandlerFrame i s t ∨ ∃ code info, code ∈ faultsOf i ∧ Raised code info s t

theorem handlerFrame_of_unchangedBut {i : Instr} {s t : State} (h : UnchangedBut (partsWritten i) s t)
    (hregs : .regs ∉ partsWritten i) : HandlerFrame i s t :=
  ⟨h, regsBut_of_unchangedBut _ h hregs⟩

/-- A handler that may raise, from what it writes when it does not and from which raises it has. -/
theorem handlerEnd_of_conclude {i : Instr} {s t : State} {r : Except Raise State} (h : conclude s r = .next t)
    (hok : ∀ u, r = .ok u → HandlerFrame i s u) (herr : ∀ e, r = .error e → e.1 ∈ faultsOf i) : HandlerEnd i s t := by
  rcases conclude_cases h with hr | ⟨e, hr, rfl⟩
  · exact .inl (hok t hr)
  · exact .inr ⟨e.1, e.2, herr e hr, raiseFault_raised s e.1 e.2⟩

theorem handlerEnd_call {nnn : Addr12} {s t : State} (h : exec (.call nnn) s = .next t) :
    HandlerEnd (.call nnn) s t := by
  cases hpush : pushPc s with
  | ok u =>
    rw [exec_call_of_pushPc_ok hpush] at h
    cases h
    refine .inl (handlerFrame_of_unchangedBut (unchangedBut_mono ?_ (unchangedBut_trans
      (pushPc_unchangedBut_stack_sp hpush) (setPc_unchangedBut_pc u _))) (by simp [partsWritten]))
    simp [partsWritten]
  | error e =>
    rw [exec_call_of_pushPc_error hpush] at h
    cases h
    obtain ⟨-, rfl⟩ := pushPc_eq_error hpush
    exact .inr ⟨_, _, by simp [faultsOf], raiseFault_raised s _ _⟩

theorem handlerEnd_ret {g : BitVec 8} {s t : State} (h : exec (.ret g) s = .next t) : HandlerEnd (.ret g) s t :=
  handlerEnd_of_conclude h
    (fun _ hu => handlerFrame_of_unchangedBut (popPc_unchangedBut_sp_pc hu) (by simp [partsWritten]))
    (fun e he => by obtain ⟨-, rfl⟩ := popPc_eq_error he; simp [faultsOf])

theorem exec_keySkip_of_no_key {i : Instr} {x : Reg} {g : Nibble} {s : State} (hi : i = .skp x g ∨ i = .sknp x g)
    (hno : vNat s x > 15) : exec i s = .next (raiseFault s (.keyIndexFault, vNat s x)) := by
  rcases hi with rfl | rfl
  · exact exec_skp_of_no_key g hno
  · exact exec_sknp_of_no_key g hno

/-- SKP and SKNP skip on some condition when `V[X]` names a key, and raise otherwise. -/
theorem exec_keySkip_cases {i : Instr} {x : Reg} {g : Nibble} (hi : i = .skp x g ∨ i = .sknp x g) (s : State) :
    (∃ c, exec i s = .next (skipIf c s)) ∨ exec i s = .next (raiseFault s (.keyIndexFault, vNat s x)) := by
  by_cases hno : vNat s x > 15
  · exact .inr (exec_keySkip_of_no_key hi hno)
  · rcases hi with rfl | rfl
    · exact .inl ⟨_, exec_skp_of_key (k := ⟨vNat s x, by omega⟩) g rfl⟩
    · exact .inl ⟨_, exec_sknp_of_key (k := ⟨vNat s x, by omega⟩) g rfl⟩

theorem handlerFrame_of_skipIf {i : Instr} (hi : partsWritten i = [.pc]) (c : Bool) (s : State) :
    HandlerFrame i s (skipIf c s) :=
  handlerFrame_of_unchangedBut (hi ▸ skipIf_unchangedBut_pc c s) (by simp [hi])

theorem handlerEnd_keySkip {i : Instr} {x : Reg} {g : Nibble} {s t : State} (hi : i = .skp x g ∨ i = .sknp x g)
    (h : exec i s = .next t) : HandlerEnd i s t := by
  rcases exec_keySkip_cases hi s with ⟨c, hc⟩ | hraise
  · rw [hc] at h
    cases h
    exact .inl (handlerFrame_of_skipIf (by rcases hi with rfl | rfl <;> rfl) c s)
  · rw [hraise] at h
    cases h
    refine .inr ⟨_, _, ?_, raiseFault_raised s _ _⟩
    rcases hi with rfl | rfl <;> simp [faultsOf]

theorem handlerEnd_stores {i : Instr} {s t : State} {l : List (Nat × Byte)} (hparts : partsWritten i = [.memory])
    (hfaults : faultsOf i = [.memoryFault, .reservedWriteFault]) (h : conclude s (storeAll l s) = .next t) :
    HandlerEnd i s t := by
  refine handlerEnd_of_conclude h (fun u hu => handlerFrame_of_unchangedBut ?_ (by simp [hparts])) fun e he => ?_
  · exact hparts ▸ storeAll_unchangedBut_memory hu
  · obtain ⟨p, -, ⟨-, rfl⟩ | ⟨-, rfl⟩⟩ := storeAll_eq_error he
    · simp [hfaults]
    · simp [hfaults]

theorem handlerEnd_ldVxMem {x : Reg} {s t : State} (h : exec (.ldVxMem x) s = .next t) :
    HandlerEnd (.ldVxMem x) s t :=
  handlerEnd_of_conclude h (fun _ hu => loadRegs_frame hu) fun e he => by
    obtain ⟨r, -, -, rfl⟩ := loadRegs_eq_error he
    simp [faultsOf]

theorem handlerEnd_drw {x y n : Reg} {s t : State} (h : exec (.drw x y n) s = .next t) :
    HandlerEnd (.drw x y n) s t := by
  refine handlerEnd_of_conclude h (fun u hu => ?_) fun e he => ?_
  · have hframe := drawRows_after_setFlag_drawFrame List.nodup_range hu
    exact ⟨hframe.unchangedBut, hframe.regsBut⟩
  · obtain ⟨row, -, ⟨-, rfl⟩ | ⟨col, -, -, -, rfl⟩⟩ := drawRows_eq_error he
    · simp [faultsOf]
    · simp [faultsOf]

theorem handlerFrame_ldVxK {x : Reg} {s t : State} (h : exec (.ldVxK x) s = .next t) :
    HandlerFrame (.ldVxK x) s t := by
  cases hscan : firstPressed s with
  | some k =>
    rw [exec_ldVxK_of_pressed hscan] at h
    cases h
    exact ⟨unchangedBut_mono (by simp [partsWritten]) (writeV_unchangedBut_regs s x _), writeV_regsBut s x _⟩
  | none =>
    rw [exec_ldVxK_of_none hscan] at h
    cases h
    have hframe := setPc_unchangedBut_pc s (s.pc - 2)
    exact ⟨unchangedBut_mono (by simp [partsWritten]) hframe, regsBut_of_unchangedBut _ hframe (by simp)⟩

/-- R22, R57, R221 over all instructions: the writes and the faults that the tables list, and no others. -/
theorem handlerEnd_of_exec {i : Instr} {s t : State} (h : exec i s = .next t) : HandlerEnd i s t := by
  cases i
  case call nnn => exact handlerEnd_call h
  case ret g => exact handlerEnd_ret h
  case skp x g => exact handlerEnd_keySkip (.inl rfl) h
  case sknp x g => exact handlerEnd_keySkip (.inr rfl) h
  case ldBVx x => exact handlerEnd_stores rfl rfl h
  case ldMemVx x => exact handlerEnd_stores rfl rfl h
  case ldVxMem x => exact handlerEnd_ldVxMem h
  case drw x y n => exact handlerEnd_drw h
  all_goals left
  case ldVxK x => exact handlerFrame_ldVxK h
  all_goals cases h
  case cls g => exact handlerFrame_of_unchangedBut (clearFb_unchangedBut_cells s) (by simp [partsWritten])
  case jp | jpV0 => exact handlerFrame_of_unchangedBut (setPc_unchangedBut_pc s _) (by simp [partsWritten])
  case ldI | addIVx | ldFVx => exact handlerFrame_of_unchangedBut (setI_unchangedBut_index s _) (by simp [partsWritten])
  case ldDtVx x => exact handlerFrame_of_unchangedBut (setDt_unchangedBut_dt s _) (by simp [partsWritten])
  case ldStVx x => exact handlerFrame_of_unchangedBut (setSt_unchangedBut_st s _) (by simp [partsWritten])
  case seImm | sneImm | seReg | sneReg => exact handlerFrame_of_skipIf rfl _ s
  case rnd x kk => exact (draw8_writeV_frame s x _).symm
  case ldImm | addImm | ldReg | orReg | andReg | xorReg | ldVxDt => exact (writeV_frame s _ _).symm
  case addReg | sub | shr | subn | shl => exact (flagThenWrite_frame s _ _ _).symm
  case nop0 | nop8 | nopE | nopF => exact handlerFrame_of_unchangedBut (unchangedBut_refl _ s) (by simp [partsWritten])

/-- Settles O6: the end of every handler, as the tables have it. -/
theorem instructionsWriteOnlyTheirParts : Obligations.InstructionsWriteOnlyTheirParts :=
  fun _ _ _ h => handlerEnd_of_exec h

end Sys2Proof.Machine
end

section
/-! PROOFS. What one Step can do (`30_encoding.md` R90, R92; `60_exceptions.md` R220 to R236), in the words of the
statements: which instruction ran, what its handler wrote, and which record is left. -/

namespace Sys2Proof.Machine

/-- The state in which the handler of the next cycle is entered: the word latched, `PC` two on (R90). -/
abbrev handlerEntry (s : State) : State := latchAndAdvance s (wordAtPc s)

/-- The state a completed cycle leaves from what its handler left (R90 step 4). -/
abbrev completeCycle (u : State) : State := { tick u with stepped := true }

/-- The cycle of instruction `i` from `s` to `t` completed: its handler left `u` without a raise. -/
structure CompletedCycle (i : Instr) (s u t : State) : Prop where
  runs : Runs i s
  handler : exec i (handlerEntry s) = .next u
  frame : HandlerFrame i (handlerEntry s) u
  noFault : u.fault = none
  result : t = completeCycle u

/-- The cycle of instruction `i` from `s` to `t` was abandoned with one of the instruction's faults. -/
structure AbandonedCycle (i : Instr) (code : Fault) (info : Nat) (s t : State) : Prop where
  runs : Runs i s
  code_mem : code ∈ faultsOf i
  result : t = recordFault s (code, info) s.pc (some (wordAtPc s))

/-- Everything one Step can do. -/
inductive StepOutcome (s t : State) : Prop
  | halted (hfault : s.fault ≠ none) (ht : t = s)
  | fetchFault (hfault : s.fault = none) (hpc : 0xFFF ≤ s.pc.toNat)
      (ht : t = recordFault s (.fetchFault, s.pc.toNat) s.pc none)
  | completed (i : Instr) (u : State) (h : CompletedCycle i s u t)
  | abandoned (i : Instr) (code : Fault) (info : Nat) (h : AbandonedCycle i code info s t)

theorem fault_not_mem_partsWritten (i : Instr) : .fault ∉ partsWritten i := by
  cases i <;> simp [partsWritten]

theorem fetchFault_not_mem_faultsOf (i : Instr) : .fetchFault ∉ faultsOf i := by
  cases i <;> simp [faultsOf]

/-- The record of a raise in the handler, seen from the start of the cycle: the advanced `PC` less 2 is the `PC` of the
start. -/
theorem abandonCycle_of_raised {s u : State} {code : Fault} {info : Nat} (h : Raised code info (handlerEntry s) u) :
    endCycle s u = recordFault s (code, info) s.pc (some (wordAtPc s)) := by
  obtain ⟨hrecord, -⟩ := h
  rw [endCycle_some hrecord, abandonCycle, hrecord, recordFault]
  simp

theorem fault_eq_none_of_runs {i : Instr} {s : State} (h : Runs i s) : s.fault = none := by
  obtain ⟨hfault, -, -⟩ := h
  exact hfault

theorem pc_in_memory_of_runs {i : Instr} {s : State} (h : Runs i s) : s.pc.toNat + 1 ≤ 0xFFF := by
  obtain ⟨-, hpc, -⟩ := h
  exact hpc

theorem step_of_runs_exec {i : Instr} {s u : State} (hruns : Runs i s) (hu : exec i (handlerEntry s) = .next u) :
    step s = .next (endCycle s u) :=
  step_of_exec (fault_eq_none_of_runs hruns) (pc_in_memory_of_runs hruns) rfl
    ((decodeWord_wordAtPc_of_runs hruns).symm ▸ hu)

/-- A running instruction's Step completes its cycle or abandons it. -/
theorem cycle_of_runs {i : Instr} {s t : State} (hruns : Runs i s) (h : step s = .next t) :
    (∃ u, CompletedCycle i s u t) ∨ ∃ code info, AbandonedCycle i code info s t := by
  obtain ⟨u, hu⟩ := exec_next i (handlerEntry s)
  have ht : t = endCycle s u := Host.Outcome.next.inj (h.symm.trans (step_of_runs_exec hruns hu))
  have hrunning := fault_eq_none_of_runs hruns
  rcases handlerEnd_of_exec hu with ⟨hparts, hregs⟩ | ⟨code, info, hcode, hraised⟩
  · have hnone : u.fault = none := (hparts .fault (fault_not_mem_partsWritten i)).trans hrunning
    exact .inl ⟨u, hruns, hu, ⟨hparts, hregs⟩, hnone, ht.trans (endCycle_none hnone)⟩
  · exact .inr ⟨code, info, hruns, hcode, ht.trans (abandonCycle_of_raised hraised)⟩

theorem runs_decodeWord {s : State} (hfault : s.fault = none) (hpc : s.pc.toNat + 1 ≤ 0xFFF) :
    Runs (decodeWord (wordAtPc s)) s :=
  ⟨hfault, hpc, rfl⟩

theorem stepOutcome_of_step {s t : State} (h : step s = .next t) : StepOutcome s t := by
  by_cases hfault : s.fault = none
  · by_cases hpc : s.pc.toNat + 1 ≤ 0xFFF
    · rcases cycle_of_runs (runs_decodeWord hfault hpc) h with ⟨u, hcycle⟩ | ⟨code, info, hcycle⟩
      · exact .completed _ u hcycle
      · exact .abandoned _ code info hcycle
    · have hstep := step_fetchFault hfault (show 0xFFF < s.pc.toNat + 1 by omega)
      exact .fetchFault hfault (by omega) (Host.Outcome.next.inj (h.symm.trans hstep))
  · exact .halted hfault (Host.Outcome.next.inj (h.symm.trans (step_halted hfault)))

/-! ### A completed cycle -/

theorem latchAndAdvance_unchangedBut_pc_latch (s : State) (w : Word) :
    UnchangedBut [.pc, .latch] s (latchAndAdvance s w) := by
  intro p hp
  cases p with
  | pc | latch => simp at hp
  | regs | stack | keys | cells | memory => exact fun _ => rfl
  | index | sp | dt | st | fault | loaded | stepped | draws => rfl

theorem completeCycle_unchangedBut_dt_st_stepped (u : State) :
    UnchangedBut [.dt, .st, .stepped] u (completeCycle u) := by
  intro p hp
  cases p with
  | dt | st | stepped => simp at hp
  | regs | stack | keys | cells | memory => exact fun _ => rfl
  | pc | index | sp | latch | fault | loaded | draws => rfl

/-- What a completed cycle leaves unchanged: all but the fetch's, the instruction's and the tick's parts. -/
theorem CompletedCycle.unchangedBut {i : Instr} {s u t : State} (h : CompletedCycle i s u t) :
    UnchangedBut ([.pc, .latch] ++ partsWritten i ++ [.dt, .st, .stepped]) s t := by
  obtain ⟨-, -, ⟨hparts, -⟩, -, rfl⟩ := h
  exact unchangedBut_trans (unchangedBut_trans (latchAndAdvance_unchangedBut_pc_latch s _) hparts)
    (completeCycle_unchangedBut_dt_st_stepped u)

theorem CompletedCycle.fault_eq_none {i : Instr} {s u t : State} (h : CompletedCycle i s u t) : t.fault = none := by
  obtain ⟨-, -, -, hnone, rfl⟩ := h
  exact hnone

theorem AbandonedCycle.fault_ne_none {i : Instr} {code : Fault} {info : Nat} {s t : State}
    (h : AbandonedCycle i code info s t) : t.fault ≠ none := by
  obtain ⟨-, -, rfl⟩ := h
  simp

/-- A Step that ends without a record completed the cycle of the running instruction. -/
theorem completedCycle_of_runs {i : Instr} {s t : State} (hruns : Runs i s) (h : step s = .next t)
    (hnone : t.fault = none) : ∃ u, CompletedCycle i s u t := by
  rcases cycle_of_runs hruns h with hcycle | ⟨code, info, hcycle⟩
  · exact hcycle
  · exact absurd hnone hcycle.fault_ne_none

/-! ### The cycle and faults -/

/-- Settles O20: by cases on the running handler's end, the last two clauses being the two ends of a cycle. -/
theorem stepRunsTheDecodedInstruction : Obligations.StepRunsTheDecodedInstruction := by
  refine ⟨fun s => step_halted, fun s => step_fetchFault, fun i s hruns => ?_⟩
  obtain ⟨u, hu⟩ := exec_next i (handlerEntry s)
  have hstep := step_of_runs_exec hruns hu
  have hpc : BitVec.ofNat 16 (s.pc.toNat + 2) = s.pc + 2 := by bv_omega
  refine ⟨u, by rw [hpc]; exact hu, fun hnone => ?_, fun hsome => ?_⟩
  · have hcount (b : Byte) : countDown b = BitVec.ofNat 8 (b.toNat - 1) := by
      rw [← countDown_toNat, BitVec.ofNat_toNat, BitVec.setWidth_eq]
    rw [hstep, endCycle_none hnone, tick, hcount, hcount]
  · obtain ⟨f, hf⟩ := Option.ne_none_iff_exists'.mp hsome
    rw [hstep, endCycle_some hf, abandonCycle]

theorem run_halted {s : State} (n : Nat) (h : s.fault ≠ none) : core.run n s = .next s := by
  induction n with
  | zero => rfl
  | succ n ih => rw [run_succ (step_halted h), ih]

theorem run_next (n : Nat) (s : State) : ∃ t, core.run n s = .next t := by
  induction n generalizing s with
  | zero => exact ⟨s, rfl⟩
  | succ n ih =>
    obtain ⟨t, ht⟩ := step_next s
    rw [run_succ ht]
    exact ih t

/-- Settles O21: by induction on the Steps, each of which has a next state. -/
theorem everyStepAnswersNext : Obligations.EveryStepAnswersNext := run_next

/-- Settles O23: by induction on the Steps, each of which answers the same state. -/
theorem haltedCoreNeverChanges : Obligations.HaltedCoreNeverChanges := fun n _ h => run_halted n h

/-- The record of a faulting Step, whichever fault it is. -/
theorem record_of_step {s t : State} {f : FaultRecord} (hs : s.fault = none) (h : step s = .next t)
    (hf : t.fault = some f) : t = { s with fault := some f } ∧ f.pc = s.pc ∧
      f.opcode = if f.code = .fetchFault then none else some (wordAtPc s) := by
  cases stepOutcome_of_step h with
  | halted hfault => exact absurd hs hfault
  | fetchFault _ _ ht =>
    subst ht
    cases hf
    exact ⟨rfl, rfl, rfl⟩
  | completed i u hcycle =>
    rw [hcycle.fault_eq_none] at hf
    cases hf
  | abandoned i code info hcycle =>
    obtain ⟨-, hcode, rfl⟩ := hcycle
    cases hf
    have hne : code ≠ .fetchFault := fun heq => fetchFault_not_mem_faultsOf i (heq ▸ hcode)
    exact ⟨rfl, rfl, (if_neg hne).symm⟩

/-- Settles O22: the record of the Step, and a halted core stays as it is. -/
theorem faultingCycleChangesOnlyTheRecord : Obligations.FaultingCycleChangesOnlyTheRecord := by
  intro s t f hs h hf
  obtain ⟨ht, hpc, hopcode⟩ := record_of_step hs h hf
  exact ⟨ht, hpc, hopcode, hf, fun n => run_halted n (by simp [hf])⟩

theorem not_pastMemory_of_runs {i : Instr} {s : State} (h : Runs i s) : ¬0xFFF ≤ s.pc.toNat :=
  Nat.not_le.mpr (Nat.lt_of_succ_le (pc_in_memory_of_runs h))

/-- Settles O24: no instruction's handler raises a fetch fault, and an instruction runs only below 0xFFF. -/
theorem fetchFaultExactlyPastMemory : Obligations.FetchFaultExactlyPastMemory := by
  intro s t hs h
  cases stepOutcome_of_step h with
  | halted hfault => exact absurd hs hfault
  | fetchFault _ hpc ht =>
    subst ht
    exact ⟨⟨fun _ => hpc, fun _ => ⟨_, rfl, rfl⟩⟩, fun _ => rfl⟩
  | completed i u hcycle =>
    have hlt := not_pastMemory_of_runs hcycle.runs
    refine ⟨⟨?_, fun hpc => absurd hpc hlt⟩, fun hpc => absurd hpc hlt⟩
    rintro ⟨f, hf, -⟩
    rw [hcycle.fault_eq_none] at hf
    cases hf
  | abandoned i code info hcycle =>
    have hlt := not_pastMemory_of_runs hcycle.runs
    obtain ⟨-, hcode, rfl⟩ := hcycle
    refine ⟨⟨?_, fun hpc => absurd hpc hlt⟩, fun hpc => absurd hpc hlt⟩
    rintro ⟨f, ⟨⟩, rfl⟩
    exact absurd hcode (fetchFault_not_mem_faultsOf i)

theorem memoryFault_mem_faultsOf {i : Instr} (h : .memoryFault ∈ faultsOf i) :
    (∃ x y n, i = .drw x y n) ∨ (∃ x, i = .ldBVx x) ∨ (∃ x, i = .ldMemVx x) ∨ ∃ x, i = .ldVxMem x := by
  cases i <;> simp [faultsOf] at h ⊢

theorem reservedWriteFault_mem_faultsOf {i : Instr} (h : .reservedWriteFault ∈ faultsOf i) :
    (∃ x, i = .ldBVx x) ∨ ∃ x, i = .ldMemVx x := by
  cases i <;> simp [faultsOf] at h ⊢

/-- Settles O25: a running instruction's Step records only a fault that the table names the instruction under. -/
theorem memoryFaultsOnlyFromDataAccesses : Obligations.MemoryFaultsOnlyFromDataAccesses := by
  intro i s t f hruns h hf
  rcases cycle_of_runs hruns h with ⟨u, hcycle⟩ | ⟨code, info, -, hcode, rfl⟩
  · rw [hcycle.fault_eq_none] at hf
    cases hf
  · cases hf
    exact ⟨fun heq => memoryFault_mem_faultsOf (heq ▸ hcode), fun heq => reservedWriteFault_mem_faultsOf (heq ▸ hcode)⟩

/-! ### Dispatch misses -/

/-- Settles O19: the handler of a miss leaves its entry state, which is then ticked. -/
theorem nopCycleOnlyAdvancesAndTicks : Obligations.NopCycleOnlyAdvancesAndTicks := by
  refine ⟨fun g s => ⟨rfl, rfl, rfl, rfl⟩, fun i s hmiss hruns => ?_⟩
  have hrunning := fault_eq_none_of_runs hruns
  have hpc := pc_in_memory_of_runs hruns
  have hadvance : (s.pc + 2).toNat = s.pc.toNat + 2 := by bv_omega
  refine ⟨_, step_of_runs hruns (exec_of_isMiss hmiss _) hrunning, hadvance, rfl, countDown_toNat s.dt,
    countDown_toNat s.st, ?_⟩
  exact unchangedBut_trans (latchAndAdvance_unchangedBut_pc_latch s _) (completeCycle_unchangedBut_dt_st_stepped _)

/-! ### Timers -/

/-- A completed cycle counts down the timers that its handler left. -/
theorem CompletedCycle.timers {i : Instr} {s u t : State} (h : CompletedCycle i s u t) :
    t.dt.toNat = u.dt.toNat - 1 ∧ t.st.toNat = u.st.toNat - 1 := by
  obtain ⟨-, -, -, -, rfl⟩ := h
  exact ⟨countDown_toNat u.dt, countDown_toNat u.st⟩

theorem dt_mem_partsWritten {i : Instr} (h : .dt ∈ partsWritten i) : ∃ x, i = .ldDtVx x := by
  cases i <;> simp [partsWritten] at h ⊢

theorem st_mem_partsWritten {i : Instr} (h : .st ∈ partsWritten i) : ∃ x, i = .ldStVx x := by
  cases i <;> simp [partsWritten] at h ⊢

/-- Settles O27: only LD DT writes DT before the tick, and only LD ST writes ST. -/
theorem timersTickEveryCompletedCycle : Obligations.TimersTickEveryCompletedCycle := by
  intro i s t hruns h hnone
  obtain ⟨u, hcycle⟩ := completedCycle_of_runs hruns h hnone
  obtain ⟨hdt, hst⟩ := hcycle.timers
  obtain ⟨-, hu, ⟨hparts, -⟩, -, -⟩ := hcycle
  refine ⟨fun hne => ?_, fun x hi => ?_, fun hne => ?_, fun x hi => ?_⟩
  · have hkept : u.dt = s.dt := hparts .dt fun hmem => by
      obtain ⟨x, hx⟩ := dt_mem_partsWritten hmem
      exact hne x hx
    rw [hdt, hkept]
  · subst hi
    cases hu
    exact hdt
  · have hkept : u.st = s.st := hparts .st fun hmem => by
      obtain ⟨x, hx⟩ := st_mem_partsWritten hmem
      exact hne x hx
    rw [hst, hkept]
  · subst hi
    cases hu
    exact hst

/-- Settles O57: each handler is one write of its timer, which the tick of its cycle counts down. -/
theorem setTimersThenTick : Obligations.SetTimersThenTick := by
  refine ⟨fun x s => ⟨⟨_, rfl, rfl, setDt_unchangedBut_dt s _⟩, ⟨_, rfl, rfl, setSt_unchangedBut_st s _⟩⟩,
    fun x s => ⟨fun hruns => ?_, fun hruns => ?_⟩⟩
  · have hrunning := fault_eq_none_of_runs hruns
    exact ⟨_, step_of_runs hruns rfl hrunning, countDown_toNat _⟩
  · have hrunning := fault_eq_none_of_runs hruns
    exact ⟨_, step_of_runs hruns rfl hrunning, countDown_toNat _⟩

/-- A Step that ends without a record began without one. -/
theorem fault_eq_none_of_step {s t : State} (h : step s = .next t) (hnone : t.fault = none) : s.fault = none := by
  by_contra hfault
  rw [step_halted hfault] at h
  cases h
  exact hfault hnone

/-- A run that ends without a record began without one. -/
theorem fault_eq_none_of_run {n : Nat} {s t : State} (h : core.run n s = .next t) (hnone : t.fault = none) :
    s.fault = none := by
  by_contra hfault
  rw [run_halted n hfault] at h
  cases h
  exact hfault hnone

/-- A Step that ends without a record completed the cycle of some instruction. -/
theorem completedCycle_of_step {s t : State} (h : step s = .next t) (hnone : t.fault = none) :
    ∃ i u, CompletedCycle i s u t := by
  cases stepOutcome_of_step h with
  | halted hfault => exact absurd (fault_eq_none_of_step h hnone) hfault
  | fetchFault _ _ ht =>
    subst ht
    cases hnone
  | completed i u hcycle => exact ⟨i, u, hcycle⟩
  | abandoned i code info hcycle => exact absurd hnone hcycle.fault_ne_none

/-- Settles O28: by induction on the run, whose first Step completed a cycle that was not LD DT's. -/
theorem delayTimerCountsCycles : Obligations.DelayTimerCountsCycles := by
  intro n
  induction n with
  | zero =>
    intro s t h _ _
    cases h
    rfl
  | succ n ih =>
    intro s t h hnone hnever
    obtain ⟨v, hv⟩ := step_next s
    rw [run_succ hv] at h
    have hvnone := fault_eq_none_of_run h hnone
    obtain ⟨i, u, hcycle⟩ := completedCycle_of_step hv hvnone
    have hfirst : v.dt.toNat = s.dt.toNat - 1 :=
      (timersTickEveryCompletedCycle i s v hcycle.runs hv hvnone).1 fun x hi =>
        hnever 0 s x (Nat.succ_pos n) rfl (hi ▸ hcycle.runs)
    have hrest := ih v t h hnone fun k w x hk hw => hnever (k + 1) w x (by omega) (run_succ hv ▸ hw)
    omega

/-! ### Keys and the reserved region -/

theorem keys_not_mem_partsWritten (i : Instr) : .keys ∉ partsWritten i := by
  cases i <;> simp [partsWritten]

theorem step_keeps_keys {s t : State} (h : step s = .next t) (k : Reg) : keyAt t k = keyAt s k := by
  cases stepOutcome_of_step h with
  | halted _ ht | fetchFault _ _ ht => subst ht; rfl
  | completed i u hcycle => exact hcycle.unchangedBut .keys (by simp [keys_not_mem_partsWritten]) k
  | abandoned i code info hcycle => exact hcycle.result ▸ rfl

theorem setKey_unchangedBut_keys (s : State) (key : Vector Bool 16) :
    UnchangedBut [.keys] s { s with key := key } := by
  intro p hp
  cases p with
  | keys => simp at hp
  | regs | stack | cells | memory => exact fun _ => rfl
  | pc | index | sp | dt | st | latch | fault | loaded | stepped | draws => rfl

/-- Settles O60: the host's write is one key of the vector, and no instruction's parts have the keys. -/
theorem onlyTheHostWritesKeys : Obligations.OnlyTheHostWritesKeys := by
  refine ⟨fun k b s => ⟨_, rfl, by simp [keyAt], fun j hj => ?_, setKey_unchangedBut_keys s _⟩, fun n s t h k => ?_⟩
  · have hne : k.val ≠ j.val := fun heq => hj (Fin.ext heq.symm)
    simp [keyAt, hne]
  · exact run_induct (P := fun u => keyAt u k = keyAt s k)
      (fun u v hu hstep => (step_keeps_keys hstep k).trans hu) rfl h

/-- Settles O11: a Step keeps every byte below 0x200, so a run does. -/
theorem reservedRegionNeverChanges : Obligations.ReservedRegionNeverChanges := by
  intro n s t h a ha
  exact run_induct (P := fun u => u.mem.read a = s.mem.read a)
    (fun u v hu hstep => ((memKept_step hstep).1 a ha).trans hu) rfl h

end Sys2Proof.Machine
end

section
/-! PROOFS. Where a completed cycle leaves `PC` (`10_state.md` R24), and CALL undone by RET (`41_control.md`). -/

namespace Sys2Proof.Machine

/-! ### CALL and RET that raised nothing -/

theorem exec_call_completed {nnn : Addr12} {s t : State} (h : exec (.call nnn) s = .next t) (hnone : t.fault = none) :
    ∃ u, pushPc s = .ok u ∧ t = setPc u (targetOf nnn) := by
  cases hpush : pushPc s with
  | ok u =>
    rw [exec_call_of_pushPc_ok hpush] at h
    cases h
    exact ⟨u, rfl, rfl⟩
  | error e =>
    rw [exec_call_of_pushPc_error hpush] at h
    cases h
    cases hnone

theorem exec_ret_completed {g : BitVec 8} {s t : State} (h : exec (.ret g) s = .next t) (hnone : t.fault = none) :
    popPc s = .ok t := by
  rcases conclude_cases h with hpop | ⟨e, -, rfl⟩
  · exact hpop
  · cases hnone

/-- Settles O33: the slot below the caller's `SP` holds the pushed address, and the pop takes that slot. -/
theorem returnUndoesCall : Obligations.ReturnUndoesCall := by
  intro nnn g s t u hcall hnone husp hustack
  obtain ⟨v, hpush, rfl⟩ := exec_call_completed hcall hnone
  obtain ⟨hroom, hsp, hslot, -⟩ := pushPc_eq_ok hpush
  have husp' : u.sp.val = s.sp.val + 1 := (congrArg Fin.val husp).trans hsp
  obtain ⟨w, hw⟩ := popPc_ok (s := u) (by omega)
  obtain ⟨-, hwsp, hwpc, -⟩ := popPc_eq_ok hw
  refine ⟨w, exec_ret_of_popPc_ok hw, ?_, Fin.ext (by omega), popPc_unchangedBut_sp_pc hw⟩
  calc w.pc = slotAt u ⟨s.sp.val, hroom⟩ := hwpc ⟨s.sp.val, hroom⟩ (by simp [husp'])
    _ = slotAt v ⟨s.sp.val, hroom⟩ := slotAt_congr hustack _
    _ = s.pc := by rw [hslot, if_pos rfl]

/-! ### `PC` -/

theorem pcAfter_of_pc_not_mem {i : Instr} (hi : .pc ∉ partsWritten i) (s : State) :
    pcAfter s i = s.pc.toNat + 2 := by
  cases i
  case jp | jpV0 | call | ret | seImm | sneImm | seReg | sneReg | skp | sknp | ldVxK => simp [partsWritten] at hi
  all_goals rfl

theorem handlerEntry_pc_toNat {s : State} (hpc : s.pc.toNat + 1 ≤ 0xFFF) :
    (handlerEntry s).pc.toNat = s.pc.toNat + 2 := by
  rw [latchAndAdvance_pc]
  bv_omega

/-- A skip from the handler's entry, counted from the start of the cycle. -/
theorem skipIf_handlerEntry_pc_toNat {s : State} (hpc : s.pc.toNat + 1 ≤ 0xFFF) (c : Bool) :
    (skipIf c (handlerEntry s)).pc.toNat = if c then s.pc.toNat + 4 else s.pc.toNat + 2 := by
  cases c with
  | false => exact handlerEntry_pc_toNat hpc
  | true =>
    simp only [skipIf_pc, latchAndAdvance_pc, if_true]
    bv_omega

theorem exists_key_iff {s : State} {x k : Reg} (hk : vNat s x = k.val) (b : Bool) :
    (∃ j : Reg, vNat s x = j.val ∧ keyAt s j = b) ↔ keyAt s k = b := by
  constructor
  · rintro ⟨j, hj, hb⟩
    have hjk : j = k := Fin.ext (hj.symm.trans hk)
    exact hjk ▸ hb
  · exact fun hb => ⟨k, hk, hb⟩

/-- A key number that raised nothing names a key. -/
theorem exists_key_of_keySkip {i : Instr} {x : Reg} {g : Nibble} {s u : State} (hi : i = .skp x g ∨ i = .sknp x g)
    (h : exec i s = .next u) (hnone : u.fault = none) : ∃ k : Reg, vNat s x = k.val := by
  by_cases hno : vNat s x > 15
  · rw [exec_keySkip_of_no_key hi hno] at h
    cases h
    cases hnone
  · exact ⟨⟨vNat s x, by omega⟩, rfl⟩

/-- What the handler leaves in `PC`, for the instructions that write it. -/
theorem CompletedCycle.handler_pc {i : Instr} {s u t : State} (h : CompletedCycle i s u t) :
    u.pc.toNat = pcAfter s i := by
  obtain ⟨⟨-, hpc, -⟩, hu, ⟨hparts, -⟩, hnone, -⟩ := h
  cases i
  case jp nnn => cases hu; exact targetOf_toNat nnn
  case jpV0 nnn => cases hu; exact offsetTarget_toNat _ nnn
  case call nnn =>
    obtain ⟨v, -, rfl⟩ := exec_call_completed hu hnone
    exact targetOf_toNat nnn
  case ret g =>
    obtain ⟨hframe, -, hslot, -⟩ := popPc_eq_ok (exec_ret_completed hu hnone)
    have hs : 0 < s.sp.val := hframe
    rw [pcAfter, dif_pos hs, hslot ⟨s.sp.val - 1, by omega⟩ rfl]
    rfl
  case seImm | sneImm | seReg | sneReg =>
    cases hu
    rw [skipIf_handlerEntry_pc_toNat hpc, pcAfter]
    simp only [decide_eq_true_eq]
    rfl
  case skp x g =>
    obtain ⟨k, hk⟩ := exists_key_of_keySkip (.inl rfl) hu hnone
    rw [exec_skp_of_key g hk] at hu
    cases hu
    rw [skipIf_handlerEntry_pc_toNat hpc, pcAfter]
    simp only [exists_key_iff (s := s) hk]
    rfl
  case sknp x g =>
    obtain ⟨k, hk⟩ := exists_key_of_keySkip (.inr rfl) hu hnone
    rw [exec_sknp_of_key g hk] at hu
    cases hu
    rw [skipIf_handlerEntry_pc_toNat hpc, pcAfter]
    simp only [exists_key_iff (s := s) hk, Bool.not_eq_true']
    rfl
  case ldVxK x =>
    rw [pcAfter]
    cases hscan : firstPressed (handlerEntry s) with
    | some k =>
      have hpressed : ¬∀ j, keyAt s j = false := fun hall => by
        rw [firstPressed_none.mpr (show ∀ j, keyAt (handlerEntry s) j = false from hall)] at hscan
        cases hscan
      rw [exec_ldVxK_of_pressed hscan] at hu
      cases hu
      rw [if_neg hpressed]
      exact handlerEntry_pc_toNat hpc
    | none =>
      have hall : ∀ j, keyAt s j = false := firstPressed_none.mp hscan
      rw [exec_ldVxK_of_none hscan] at hu
      cases hu
      rw [if_pos hall, setPc_pc, latchAndAdvance_pc, BitVec.add_sub_cancel]
  all_goals
    rw [pcAfter_of_pc_not_mem (by simp [partsWritten]), hparts .pc (by simp [partsWritten])]
    exact handlerEntry_pc_toNat hpc

theorem CompletedCycle.pc {i : Instr} {s u t : State} (h : CompletedCycle i s u t) : t.pc.toNat = pcAfter s i := by
  rw [h.result]
  exact h.handler_pc

/-- Settles O7: a Step without a record completed the running instruction's cycle. -/
theorem pcAfterCompletedCycle : Obligations.PcAfterCompletedCycle := by
  intro i s t hruns h hnone
  obtain ⟨u, hcycle⟩ := completedCycle_of_runs hruns h hnone
  exact hcycle.pc

end Sys2Proof.Machine
end

section
/-! PROOFS. The machine invariant: it holds at construction, and every Step and every host action keeps it. -/

namespace Sys2Proof

open Machine

/-- R25: the largest `PC` a completed cycle leaves is V0 + NNN with both at their largest. -/
theorem pcAfter_le {i : Instr} {s : State} (hinv : StateInv s) (hruns : Runs i s) : pcAfter s i ≤ 0x10FE := by
  have hpc := pc_in_memory_of_runs hruns
  cases i
  case jp nnn | call nnn => exact le_trans (Nat.le_of_lt nnn.isLt) (by decide)
  case jpV0 nnn =>
    have hbyte : vNat s 0 < 256 := (readV s 0).isLt
    have hnnn : nnn.toNat < 4096 := nnn.isLt
    rw [pcAfter]
    omega
  case ret g =>
    rw [pcAfter]
    split
    · next hframe => exact le_trans (hinv.frames _ (by simp only; omega)) (by decide)
    · exact Nat.zero_le _
  case seImm | sneImm | seReg | sneReg | skp | sknp | ldVxK =>
    rw [pcAfter]
    split <;> omega
  all_goals
    rw [pcAfter_of_pc_not_mem (by simp [partsWritten])]
    omega

/-- The stack after a completed cycle: CALL pushes an address of at most 0x1000, RET drops a frame, and every other
instruction leaves stack and `SP`. -/
theorem frames_of_completedCycle {i : Instr} {s u t : State} (hinv : StateInv s) (h : CompletedCycle i s u t)
    (k : Fin 16) (hk : k.val < t.sp.val) : (slotAt t k).toNat ≤ 0x1000 := by
  have hbound := pc_in_memory_of_runs h.runs
  have hpc := handlerEntry_pc_toNat hbound
  obtain ⟨-, hu, ⟨hparts, -⟩, hnone, rfl⟩ := h
  change k.val < u.sp.val at hk
  change (slotAt u k).toNat ≤ 0x1000
  cases i
  case call nnn =>
    obtain ⟨v, hpush, rfl⟩ := exec_call_completed hu hnone
    obtain ⟨-, hsp, hslot, -⟩ := pushPc_eq_ok hpush
    change k.val < v.sp.val at hk
    change (slotAt v k).toNat ≤ 0x1000
    rw [hslot k]
    split
    · omega
    · next hne =>
      have hlt : k.val < s.sp.val := by rw [hsp] at hk; simp only [latchAndAdvance_sp] at hk hne; omega
      exact hinv.frames k hlt
  case ret g =>
    have hpop := exec_ret_completed hu hnone
    obtain ⟨-, hsp, -, -⟩ := popPc_eq_ok hpop
    rw [popPc_unchangedBut_sp_pc hpop .stack (by simp) k]
    simp only [latchAndAdvance_sp] at hsp
    exact hinv.frames k (by omega)
  all_goals
    rw [hparts .sp (by simp [partsWritten])] at hk
    rw [hparts .stack (by simp [partsWritten]) k]
    exact hinv.frames k hk

/-- A record put into a state that has the invariant keeps it, if it names `PC` and lacks the word exactly for a fetch
fault. -/
theorem stateInv_of_record {s : State} {f : FaultRecord} (hinv : StateInv s) (hpc : f.pc = s.pc)
    (hopcode : f.opcode = none ↔ f.code = .fetchFault) : StateInv { s with fault := some f } where
  mem_wf := hinv.mem_wf
  reserved := hinv.reserved
  pc_le := hinv.pc_le
  frames := hinv.frames
  fault_pc := by rintro _ ⟨⟩; exact hpc
  fault_opcode := by rintro _ ⟨⟩; exact hopcode

theorem stateInv_of_completedCycle {i : Instr} {s u t : State} (hinv : StateInv s) (h : CompletedCycle i s u t)
    (hmem : MemKept s.mem t.mem) : StateInv t where
  mem_wf := hmem.2 hinv.mem_wf
  reserved a ha := (hmem.1 a ha).trans (hinv.reserved a ha)
  pc_le := h.pc ▸ pcAfter_le hinv h.runs
  frames := frames_of_completedCycle hinv h
  fault_pc f hf := by rw [h.fault_eq_none] at hf; cases hf
  fault_opcode f hf := by rw [h.fault_eq_none] at hf; cases hf

/-- Settles O3: a Step leaves a halted core, records a fault, or completes a cycle. -/
theorem stepKeepsInvariant : Obligations.StepKeepsInvariant := by
  intro s t hinv h
  cases stepOutcome_of_step h with
  | halted _ ht => exact ht ▸ hinv
  | fetchFault _ _ ht => exact ht ▸ stateInv_of_record hinv rfl (by simp)
  | completed i u hcycle => exact stateInv_of_completedCycle hinv hcycle (memKept_step h)
  | abandoned i code info hcycle =>
    obtain ⟨-, hcode, rfl⟩ := hcycle
    have hne : code ≠ .fetchFault := fun heq => fetchFault_not_mem_faultsOf i (heq ▸ hcode)
    exact stateInv_of_record hinv rfl (by simp [hne])

theorem stateInv_construct (d : Launch) : StateInv (State.construct d) where
  mem_wf := Memory.nil_wf
  reserved _ _ := rfl
  pc_le := by simp
  frames k hk := by simp at hk
  fault_pc := by rintro _ ⟨⟩
  fault_opcode := by rintro _ ⟨⟩

/-- Settles O2: a constructed state has no listed byte, no frame and no record. -/
theorem constructionMeetsInvariant : Obligations.ConstructionMeetsInvariant :=
  ⟨stateInv_construct, stateInv_construct Launch.zero⟩

/-! ### Host actions -/

/-- A load that goes through was short enough and admitted. -/
theorem loadProgram_eq_next {bytes : List Byte} {s t : State} (h : loadProgram bytes s = .next t) :
    bytes.length ≤ 3584 ∧ t = { pokeBytes 0x200 bytes s with loaded := true } := by
  unfold loadProgram at h
  split at h
  · cases h
  · next hlen =>
    split at h
    · cases h
      exact ⟨Nat.not_lt.mp hlen, rfl⟩
    · cases h

/-- A load fits between 0x200 and the end of memory. -/
theorem loadProgram_keeps_stateInv {bytes : List Byte} {s t : State} (hinv : StateInv s)
    (h : loadProgram bytes s = .next t) : StateInv t := by
  obtain ⟨hlen, rfl⟩ := loadProgram_eq_next h
  obtain ⟨-, hother, -, hwf⟩ := @pokeBytes_spec bytes 0x200 s
  have hframe := pokeBytes_unchangedBut_memory 0x200 bytes s
  have hpc : (pokeBytes 0x200 bytes s).pc = s.pc := hframe .pc (by simp)
  have hsp : (pokeBytes 0x200 bytes s).sp = s.sp := hframe .sp (by simp)
  have hfault : (pokeBytes 0x200 bytes s).fault = s.fault := hframe .fault (by simp)
  exact {
    mem_wf := hwf (by omega) hinv.mem_wf
    reserved := fun a ha => (hother a (by omega)).trans (hinv.reserved a ha)
    pc_le := hpc ▸ hinv.pc_le
    frames := fun k hk => (hframe .stack (by simp) k) ▸ hinv.frames k (hsp ▸ hk)
    fault_pc := fun f hf => (hinv.fault_pc f (hfault ▸ hf)).trans hpc.symm
    fault_opcode := fun f hf => hinv.fault_opcode f (hfault ▸ hf) }

theorem stateInv_setKey {s : State} (hinv : StateInv s) (key : Vector Bool 16) : StateInv { s with key := key } where
  mem_wf := hinv.mem_wf
  reserved := hinv.reserved
  pc_le := hinv.pc_le
  frames := hinv.frames
  fault_pc := hinv.fault_pc
  fault_opcode := hinv.fault_opcode

theorem act_keeps_stateInv {a : Action} {s t : State} (hinv : StateInv s) (h : act a s = .next t) : StateInv t := by
  cases a with
  | load bytes => exact loadProgram_keeps_stateInv hinv h
  | key k pressed =>
    cases h
    exact stateInv_setKey hinv _
  | step => exact stepKeepsInvariant s t hinv h

/-- A run of actions that ends in a next state began with an action that did. -/
theorem runActions_cons_eq_next {a : Action} {rest : List Action} {s t : State}
    (h : runActions (a :: rest) s = .next t) : ∃ u, act a s = .next u ∧ runActions rest u = .next t := by
  unfold runActions at h
  split at h
  · next u hu => exact ⟨u, hu, h⟩
  · cases h
  · cases h

/-- Settles O4: by induction on the list of actions, each of which keeps the invariant. -/
theorem hostActionsKeepInvariant : Obligations.HostActionsKeepInvariant := by
  intro actions
  induction actions with
  | nil =>
    intro s t hinv h
    cases h
    exact hinv
  | cons a rest ih =>
    intro s t hinv h
    obtain ⟨u, hu, hrest⟩ := runActions_cons_eq_next h
    exact ih u t (act_keeps_stateInv hinv hu) hrest

/-! ### When a load is admitted -/

theorem loadAdmitted_of_loadProgram {bytes : List Byte} {s t : State} (h : loadProgram bytes s = .next t) :
    loadAdmitted t = false := by
  obtain ⟨-, rfl⟩ := loadProgram_eq_next h
  rfl

/-- After a Step the core is halted or has completed a cycle. -/
theorem loadAdmitted_of_step {s t : State} (h : step s = .next t) : loadAdmitted t = false := by
  cases stepOutcome_of_step h with
  | halted hfault ht => simp [loadAdmitted, ht, Option.isSome_iff_ne_none, hfault]
  | fetchFault _ _ ht => simp [loadAdmitted, ht]
  | completed i u hcycle => simp [loadAdmitted, hcycle.result]
  | abandoned i code info hcycle => simp [loadAdmitted, hcycle.result]

theorem loadProgram_of_not_admitted {s : State} (h : loadAdmitted s = false) (bytes : List Byte) :
    ∃ r, loadProgram bytes s = .refused r := by
  unfold loadProgram
  split
  · exact ⟨_, rfl⟩
  · exact ⟨_, if_neg (by simp [h])⟩

/-- Settles O59: a load and a Step end admission, and a keypad write does not touch it. -/
theorem loadAdmittedOnceBeforeFirstStep : Obligations.LoadAdmittedOnceBeforeFirstStep := by
  refine ⟨fun _ => rfl, fun _ _ _ => loadAdmitted_of_loadProgram, fun _ _ => loadAdmitted_of_step,
    fun a s t hs h => ?_, fun bytes s hs => loadProgram_of_not_admitted hs bytes⟩
  cases a with
  | load bytes => exact loadAdmitted_of_loadProgram h
  | key k pressed =>
    cases h
    exact hs
  | step => exact loadAdmitted_of_step h

end Sys2Proof
end

section
/-! PROOFS. The latch and the dead stack slots influence nothing (`10_state.md` R30, R34): a Step is simulated from a
state with another stack. Every handler but CALL's and RET's commutes with exchanging the stack; those two touch live
slots only. -/

namespace Sys2Proof.Machine

/-- The state with another stack. -/
def withStack (s : State) (stack : Vector Word 16) : State := { s with stack := stack }

variable {s t : State} {stack : Vector Word 16}

/-! ### Operations that do not read the stack commute with exchanging it -/

theorem memWrite_withStack (s : State) (stack : Vector Word 16) (a : Nat) (b : Byte) :
    memWrite (withStack s stack) a b = (memWrite s a b).map (withStack · stack) := by
  unfold memWrite
  split
  · rfl
  · split <;> rfl

theorem storeAll_withStack (l : List (Nat × Byte)) (s : State) (stack : Vector Word 16) :
    storeAll l (withStack s stack) = (storeAll l s).map (withStack · stack) := by
  induction l generalizing s with
  | nil => rfl
  | cons p l ih =>
    obtain ⟨a, b⟩ := p
    simp only [storeAll, memWrite_withStack]
    cases memWrite s a b with
    | error e => rfl
    | ok t => exact ih t

theorem loadRegs_withStack (base : Nat) (l : List Reg) (s : State) (stack : Vector Word 16) :
    loadRegs base l (withStack s stack) = (loadRegs base l s).map (withStack · stack) := by
  induction l generalizing s with
  | nil => rfl
  | cons r l ih =>
    have hread : memRead (withStack s stack) (base + r.val) = memRead s (base + r.val) := rfl
    simp only [loadRegs, hread]
    cases memRead s (base + r.val) with
    | error e => rfl
    | ok b => exact ih (writeV s r b)

theorem noteCollision_withStack (s : State) (stack : Vector Word 16) (k : Fin 2048) :
    noteCollision (withStack s stack) k = withStack (noteCollision s k) stack := by
  have hcell : readCell (withStack s stack) k = readCell s k := rfl
  unfold noteCollision
  rw [hcell]
  split <;> rfl

theorem drawPixel_withStack (k : Nat) (s : State) (stack : Vector Word 16) :
    drawPixel k (withStack s stack) = (drawPixel k s).map (withStack · stack) := by
  unfold drawPixel
  split
  · rw [noteCollision_withStack]; rfl
  · rfl

theorem drawColumns_withStack (b : Byte) (xPos yPos row : Nat) (cols : List Nat) (s : State)
    (stack : Vector Word 16) :
    drawColumns b xPos yPos row cols (withStack s stack) =
      (drawColumns b xPos yPos row cols s).map (withStack · stack) := by
  induction cols generalizing s with
  | nil => rfl
  | cons col cols ih =>
    simp only [drawColumns, drawPixel_withStack]
    split
    · cases drawPixel (spriteCell xPos yPos row col) s with
      | error e => rfl
      | ok t => exact ih t
    · exact ih s

theorem drawRows_withStack (xPos yPos : Nat) (rows : List Nat) (s : State) (stack : Vector Word 16) :
    drawRows xPos yPos rows (withStack s stack) = (drawRows xPos yPos rows s).map (withStack · stack) := by
  induction rows generalizing s with
  | nil => rfl
  | cons row rows ih =>
    have hread : memRead (withStack s stack) (effAddr (withStack s stack) row) = memRead s (effAddr s row) := rfl
    simp only [drawRows, hread]
    cases memRead s (effAddr s row) with
    | error e => rfl
    | ok b =>
      simp only [drawColumns_withStack]
      cases drawColumns b xPos yPos row spriteColumns s with
      | error e => rfl
      | ok t => exact ih t

theorem conclude_withStack {r r' : Except Raise State} (hr : r' = r.map (withStack · stack))
    (h : conclude s r = .next t) : conclude (withStack s stack) r' = .next (withStack t stack) := by
  subst hr
  cases r with
  | ok u => cases h; rfl
  | error e => cases h; rfl

theorem skipIf_withStack (c : Bool) (s : State) (stack : Vector Word 16) :
    skipIf c (withStack s stack) = withStack (skipIf c s) stack := by
  cases c <;> rfl

theorem exec_keySkip_withStack {i : Instr} {x : Reg} {g : Nibble} (hi : i = .skp x g ∨ i = .sknp x g)
    (h : exec i s = .next t) : exec i (withStack s stack) = .next (withStack t stack) := by
  have hread : readKey (withStack s stack) (readV (withStack s stack) x) = readKey s (readV s x) := rfl
  rcases hi with rfl | rfl
  all_goals
    refine conclude_withStack ?_ h
    rw [hread]
    cases readKey s (readV s x) with
    | error e => rfl
    | ok pressed => exact congrArg Except.ok (skipIf_withStack _ s stack)

theorem exec_ldVxK_withStack {x : Reg} (h : exec (.ldVxK x) s = .next t) :
    exec (.ldVxK x) (withStack s stack) = .next (withStack t stack) := by
  have hscan : firstPressed (withStack s stack) = firstPressed s := rfl
  cases hk : firstPressed s with
  | some k =>
    rw [exec_ldVxK_of_pressed hk] at h
    rw [exec_ldVxK_of_pressed (hscan.trans hk)]
    cases h
    rfl
  | none =>
    rw [exec_ldVxK_of_none hk] at h
    rw [exec_ldVxK_of_none (hscan.trans hk)]
    cases h
    rfl

/-- Every handler but CALL's and RET's, the two that write `SP`. -/
theorem exec_withStack {i : Instr} (hi : .sp ∉ partsWritten i) (h : exec i s = .next t) :
    exec i (withStack s stack) = .next (withStack t stack) := by
  cases i
  case call | ret => simp [partsWritten] at hi
  case ldBVx x => exact conclude_withStack (storeAll_withStack (bcdStores s x) s stack) h
  case ldMemVx x => exact conclude_withStack (storeAll_withStack (dumpStores s x) s stack) h
  case ldVxMem x => exact conclude_withStack (loadRegs_withStack (effAddr s 0) (regsThrough x) s stack) h
  case drw x y n =>
    exact conclude_withStack (drawRows_withStack (originColumn s x) (originRow s y) (spriteRows n) (setFlag s 0) stack) h
  case skp x g => exact exec_keySkip_withStack (.inl rfl) h
  case sknp x g => exact exec_keySkip_withStack (.inr rfl) h
  case ldVxK x => exact exec_ldVxK_withStack h
  case seImm | sneImm | seReg | sneReg =>
    cases h
    exact congrArg Host.Outcome.next (skipIf_withStack _ s stack)
  all_goals
    cases h
    rfl

/-! ### Handlers -/

/-- Handlers are entered with equal latches, so only the dead slots may differ there. -/
def SameButDeadSlots (s t : State) : Prop :=
  t = withStack s t.stack ∧ ∀ k : Fin 16, k.val < s.sp.val → slotAt t k = slotAt s k

theorem sameButDeadSlots_raiseFault
    (hslots : ∀ k : Fin 16, k.val < s.sp.val → slotAt (withStack s stack) k = slotAt s k) (e : Raise) :
    SameButDeadSlots (raiseFault s e) (raiseFault (withStack s stack) e) :=
  ⟨rfl, hslots⟩

theorem exec_keeps_sp_and_stack {i : Instr} (hi : .sp ∉ partsWritten i) (h : exec i s = .next t) :
    t.sp = s.sp ∧ ∀ k, slotAt t k = slotAt s k := by
  have hstack : .stack ∉ partsWritten i := by cases i <;> simp [partsWritten] at hi ⊢
  rcases handlerEnd_of_exec h with ⟨hparts, -⟩ | ⟨code, info, -, -, hframe⟩
  · exact ⟨hparts .sp hi, hparts .stack hstack⟩
  · exact ⟨hframe .sp (by simp), hframe .stack (by simp)⟩

/-- CALL reads no slot, and writes one that becomes live. -/
theorem exec_call_sameButDeadSlots {nnn : Addr12}
    (hslots : ∀ k : Fin 16, k.val < s.sp.val → slotAt (withStack s stack) k = slotAt s k) :
    ∃ s' t', exec (.call nnn) s = .next s' ∧ exec (.call nnn) (withStack s stack) = .next t' ∧
      SameButDeadSlots s' t' := by
  by_cases hfull : s.sp.val = 16
  · exact ⟨_, _, exec_call_of_pushPc_error (pushPc_full hfull), exec_call_of_pushPc_error (pushPc_full hfull),
      sameButDeadSlots_raiseFault hslots _⟩
  · have hroom : s.sp.val < 16 := by omega
    obtain ⟨u, hu⟩ := pushPc_ok hroom
    obtain ⟨v, hv⟩ := pushPc_ok (s := withStack s stack) hroom
    obtain ⟨-, husp, huslot, hushape⟩ := pushPc_eq_ok hu
    obtain ⟨-, hvsp, hvslot, hvshape⟩ := pushPc_eq_ok hv
    have hsp : v.sp = u.sp := Fin.ext (hvsp.trans husp.symm)
    have hshape : v = withStack u v.stack :=
      calc v = { s with stack := v.stack, sp := v.sp } := hvshape
        _ = { s with stack := v.stack, sp := u.sp } := by rw [hsp]
        _ = withStack u v.stack := (congrArg (withStack · v.stack) hushape).symm
    refine ⟨_, _, exec_call_of_pushPc_ok hu, exec_call_of_pushPc_ok hv, congrArg (setPc · _) hshape, fun k hk => ?_⟩
    change k.val < u.sp.val at hk
    change slotAt v k = slotAt u k
    rw [hvslot, huslot]
    split
    · next heq => exact (if_pos heq).symm
    · next hne =>
      change k.val ≠ s.sp.val at hne
      rw [if_neg hne]
      exact hslots k (by omega)

/-- RET reads the slot below `SP`, which is live. -/
theorem exec_ret_sameButDeadSlots {g : BitVec 8}
    (hslots : ∀ k : Fin 16, k.val < s.sp.val → slotAt (withStack s stack) k = slotAt s k) :
    ∃ s' t', exec (.ret g) s = .next s' ∧ exec (.ret g) (withStack s stack) = .next t' ∧ SameButDeadSlots s' t' := by
  by_cases hempty : s.sp.val = 0
  · exact ⟨_, _, exec_ret_of_popPc_error (popPc_empty hempty), exec_ret_of_popPc_error (popPc_empty hempty),
      sameButDeadSlots_raiseFault hslots _⟩
  · have hframe : 0 < s.sp.val := Nat.pos_of_ne_zero hempty
    obtain ⟨u, hu⟩ := popPc_ok hframe
    obtain ⟨v, hv⟩ := popPc_ok (s := withStack s stack) hframe
    obtain ⟨-, husp, hupc, hushape⟩ := popPc_eq_ok hu
    obtain ⟨-, hvsp, hvpc, hvshape⟩ := popPc_eq_ok hv
    have hsp : v.sp = u.sp := Fin.ext (hvsp.trans husp.symm)
    have hpc : v.pc = u.pc := by
      have htop : s.sp.val - 1 < 16 := by omega
      rw [hvpc ⟨s.sp.val - 1, htop⟩ rfl, hupc ⟨s.sp.val - 1, htop⟩ rfl]
      exact hslots _ (Nat.sub_lt hframe Nat.one_pos)
    have hustack : ∀ k, slotAt u k = slotAt s k := popPc_unchangedBut_sp_pc hu .stack (by simp)
    have hvstack : ∀ k, slotAt v k = slotAt (withStack s stack) k := popPc_unchangedBut_sp_pc hv .stack (by simp)
    refine ⟨u, v, exec_ret_of_popPc_ok hu, exec_ret_of_popPc_ok hv, ?_, fun k hk => ?_⟩
    · calc v = { withStack s stack with sp := v.sp, pc := v.pc } := hvshape
        _ = { withStack s stack with sp := u.sp, pc := u.pc } := by rw [hsp, hpc]
        _ = withStack u stack := (congrArg (withStack · stack) hushape).symm
        _ = withStack u v.stack := by rw [hvshape]; rfl
    · rw [hustack, hvstack]
      exact hslots k (by omega)

/-- Every handler keeps states alike but for dead slots. -/
theorem exec_sameButDeadSlots (i : Instr) (h : SameButDeadSlots s t) :
    ∃ s' t', exec i s = .next s' ∧ exec i t = .next t' ∧ SameButDeadSlots s' t' := by
  obtain ⟨ht, hslots⟩ := h
  generalize t.stack = stack at ht
  subst ht
  by_cases hi : .sp ∈ partsWritten i
  · cases i
    case call nnn => exact exec_call_sameButDeadSlots hslots
    case ret g => exact exec_ret_sameButDeadSlots hslots
    all_goals simp [partsWritten] at hi
  · obtain ⟨u, hu⟩ := exec_next i s
    obtain ⟨hsp, hkept⟩ := exec_keeps_sp_and_stack hi hu
    refine ⟨u, withStack u stack, hu, exec_withStack hi hu, rfl, fun k hk => ?_⟩
    rw [hkept k]
    exact hslots k (hsp ▸ hk)

/-! ### The Step -/

/-- The end of the cycle takes both handlers' ends alike: ticked, or given up with the same record. -/
theorem endCycle_sameButDead {u v : State} (hstart : SameButDead s t) (h : SameButDeadSlots u v) :
    SameButDead (endCycle s u) (endCycle t v) ∧
      ((endCycle s u).fault = none → (endCycle t v).opc = (endCycle s u).opc) := by
  obtain ⟨hv, hslots⟩ := h
  generalize v.stack = stack at hv
  subst hv
  cases hu : u.fault with
  | none =>
    rw [endCycle_none hu, endCycle_none (show (withStack u stack).fault = none from hu)]
    exact ⟨⟨rfl, hslots⟩, fun _ => rfl⟩
  | some f =>
    obtain ⟨ht, hlive⟩ := hstart
    generalize t.opc = opc, t.stack = stack' at ht
    subst ht
    rw [endCycle_some hu, endCycle_some (show (withStack u stack).fault = some f from hu)]
    refine ⟨⟨rfl, hlive⟩, fun hnone => ?_⟩
    rw [abandonCycle_fault, hu] at hnone
    cases hnone

/-- Settles O5: both Steps fetch the same word, and the handler and the end of the cycle keep the relation. -/
theorem deadSlotsAndLatchAreUnobservable : Obligations.DeadSlotsAndLatchAreUnobservable := by
  rintro s t ⟨ht, hlive⟩
  generalize t.opc = opc, t.stack = stack at ht
  subst ht
  by_cases hs : s.fault = none
  · by_cases hpc : s.pc.toNat + 1 ≤ 0xFFF
    · have hentry : SameButDeadSlots (handlerEntry s) (handlerEntry { s with opc := opc, stack := stack }) := ⟨rfl, hlive⟩
      obtain ⟨u, v, hu, hv, huv⟩ := exec_sameButDeadSlots (decodeWord (wordAtPc s)) hentry
      exact ⟨_, _, step_of_exec hs hpc rfl hu, step_of_exec hs hpc rfl hv, endCycle_sameButDead ⟨rfl, hlive⟩ huv⟩
    · have hpast : 0xFFF < s.pc.toNat + 1 := Nat.lt_of_not_le hpc
      exact ⟨_, _, step_fetchFault hs hpast, step_fetchFault hs hpast, ⟨rfl, hlive⟩, fun hnone => by cases hnone⟩
  · exact ⟨_, _, step_halted hs, step_halted hs, ⟨rfl, hlive⟩, fun hnone => absurd hnone hs⟩

end Sys2Proof.Machine
end

section
/-! PROOFS. Memory as data, and what a dump stored read back (`20_memory.md` §1, §7; `43_index_memory.md` §2). -/

namespace Sys2Proof.Machine

/-- An address that does not read as unlisted is listed. -/
theorem Memory.mem_of_read_ne {m : Memory} {a : Nat} (h : m.read a ≠ background a) : (a, m.read a) ∈ m := by
  induction m with
  | nil => exact absurd rfl h
  | cons c m ih =>
    obtain ⟨k, b⟩ := c
    by_cases hk : k = a
    · simp [Memory.read, hk]
    · simp only [Memory.read, if_neg hk] at h ⊢
      exact List.mem_cons_of_mem _ (ih h)

/-- What is listed in a canonical memory, said by reading alone. -/
theorem Memory.mem_iff_read {m : Memory} (h : m.wf) (c : Host.Cell) :
    c ∈ m ↔ m.read c.1 = c.2 ∧ c.2 ≠ background c.1 := by
  constructor
  · exact fun hc => ⟨Memory.read_of_mem h hc, (h.2 c hc).2⟩
  · rintro ⟨hread, hne⟩
    have hmem := Memory.mem_of_read_ne (hread.symm ▸ hne)
    rwa [hread] at hmem

/-- Settles O9: both list the same cells, and a listing with rising addresses is determined by its cells. -/
theorem canonicalMemoryIsDeterminedByItsBytes : Obligations.CanonicalMemoryIsDeterminedByItsBytes := by
  intro m n hm hn hread
  have hirrefl : Std.Irrefl fun c d : Host.Cell => c.1 < d.1 := ⟨fun c => lt_irrefl c.1⟩
  have hasymm : Std.Asymm fun c d : Host.Cell => c.1 < d.1 := ⟨fun c d => lt_asymm⟩
  refine List.Pairwise.eq_of_mem_iff hm.1 hn.1 fun c => ?_
  rw [Memory.mem_iff_read hm, Memory.mem_iff_read hn, hread]

/-! ### LD [I],Vx read back -/

/-- A dump that raised nothing: every address may be stored to, and holds its register. -/
theorem exec_ldMemVx_completed {x : Reg} {s t : State} (h : exec (.ldMemVx x) s = .next t) (hnone : t.fault = none)
    {r : Reg} (hr : r ≤ x) : Storable (effAddr s r.val) ∧ t.mem.read (effAddr s r.val) = readV s r := by
  rcases conclude_cases h with hstored | ⟨e, -, rfl⟩
  · obtain ⟨hok, -, -, -⟩ := storeAll_eq_ok hstored
    have hdistinct := (dumpStores_addresses_rise s x).imp Nat.ne_of_lt
    exact ⟨hok _ (register_mem_dumpStores s hr), storeAll_read hstored hdistinct _ (register_mem_dumpStores s hr)⟩
  · cases hnone

/-- Settles O10: the two bytes at `PC` are those the dump stored for `V[j]` and `V[j+1]`. -/
theorem storedBytesAreFetched : Obligations.StoredBytesAreFetched := by
  intro x s t u j r q h hnone hmem hpc hr hq hqx
  obtain ⟨-, hhigh⟩ := exec_ldMemVx_completed h hnone (show r ≤ x from Fin.le_def.mpr (by omega))
  obtain ⟨⟨-, hin⟩, hlow⟩ := exec_ldMemVx_completed h hnone (Fin.le_def.mpr hqx)
  have hnext : u.pc.toNat + 1 = effAddr s q.val := by rw [hpc, hq]; rfl
  rw [fetchWord_ok (hnext ▸ hin), hnext, hpc, hmem, ← hr, hhigh, hlow]
  rfl

/-! ### LD Vx,[I] -/

theorem exec_ldVxMem_of_loadRegs_ok {x : Reg} {s t : State} (h : loadRegs (effAddr s 0) (regsThrough x) s = .ok t) :
    exec (.ldVxMem x) s = .next t := by
  simp [exec, execLdVxMem, h]

theorem exec_ldVxMem_of_loadRegs_error {x : Reg} {s : State} {e : Raise}
    (h : loadRegs (effAddr s 0) (regsThrough x) s = .error e) : exec (.ldVxMem x) s = .next (raiseFault s e) := by
  simp [exec, execLdVxMem, h]

theorem mem_regsThrough_iff_le {x r : Reg} : r ∈ regsThrough x ↔ r ≤ x :=
  mem_regsThrough.trans Fin.le_def.symm

/-- A load whose addresses are all readable. -/
theorem exec_ldVxMem_of_readable {x : Reg} {s : State} (h : ∀ r : Reg, r ≤ x → effAddr s r.val ≤ 0xFFF) :
    ∃ t, exec (.ldVxMem x) s = .next t ∧ UnchangedBut [.regs] s t ∧
      ∀ r, readV t r = if r ≤ x then s.mem.read (effAddr s r.val) else readV s r := by
  obtain ⟨t, ht⟩ := loadRegs_ok (base := effAddr s 0) (fun r hr => h r (mem_regsThrough_iff_le.mp hr)) s
  obtain ⟨-, -, hregs⟩ := loadRegs_eq_ok ht
  obtain ⟨hframe, -⟩ := loadRegs_frame ht
  refine ⟨t, exec_ldVxMem_of_loadRegs_ok ht, hframe, fun r => ?_⟩
  simp only [hregs r, mem_regsThrough_iff_le]
  rfl

/-- Settles O48: the registers are loaded in rising order, so the first unreadable address is the one that raises. -/
theorem loadFillsRegisters : Obligations.LoadFillsRegisters := by
  refine fun x s => ⟨fun hok => ?_, fun r hr hbelow hbad => ?_⟩
  · obtain ⟨t, ht, hframe, hregs⟩ := exec_ldVxMem_of_readable hok
    exact ⟨t, ht, fun r hr => (hregs r).trans (if_pos hr), fun r hr => (hregs r).trans (if_neg (not_le.mpr hr)), hframe⟩
  · obtain ⟨l₁, l₂, hsplit⟩ := List.append_of_mem (mem_regsThrough_iff_le.mpr hr)
    have hrise := regsThrough_rise x
    rw [hsplit, List.pairwise_append] at hrise
    obtain ⟨-, -, hcross⟩ := hrise
    have hfirst : ∀ q ∈ l₁, effAddr s 0 + q.val ≤ 0xFFF := fun q hq => hbelow q (hcross q hq r List.mem_cons_self)
    exact ⟨_, exec_ldVxMem_of_loadRegs_error (hsplit ▸ loadRegs_first_error hfirst s hbad), raiseFault_raised s _ _⟩

/-- Settles O49: the load reads the bytes that the dump stored. -/
theorem dumpThenLoadRestores : Obligations.DumpThenLoadRestores := by
  intro x s t u h hnone hi hmem
  have haddr (k : Nat) : effAddr u k = effAddr s k := by rw [effAddr, hi]; rfl
  obtain ⟨w, hw, hframe, hregs⟩ := exec_ldVxMem_of_readable (x := x) (s := u) fun r hr => by
    obtain ⟨⟨-, hin⟩, -⟩ := exec_ldMemVx_completed h hnone hr
    rw [haddr]
    exact hin
  refine ⟨w, hw, fun r hr => ?_, hframe .fault (by simp)⟩
  obtain ⟨-, hstored⟩ := exec_ldMemVx_completed h hnone hr
  rw [hregs r, if_pos hr, haddr, hmem, hstored]

end Sys2Proof.Machine
end

section
/-! PROOFS. A machine with nothing loaded (`70_reset_and_hazards.md` R266): from 0x200 on, unlisted memory reads 0, which
is CLS. -/

namespace Sys2Proof.Machine

theorem background_of_ge {a : Nat} (h : 0x200 ≤ a) : background a = 0 := by
  rw [background, if_neg (Nat.not_lt.mpr h)]

/-- A running machine without a listed byte, `n` instructions after its entry point. -/
structure UnloadedAt (n : Nat) (s : State) : Prop where
  mem : s.mem = []
  fault : s.fault = none
  pc : s.pc.toNat = 0x200 + 2 * n

theorem UnloadedAt.runs_cls {n : Nat} {s : State} (h : UnloadedAt n s) (hn : n < 1792) : Runs (.cls 0) s := by
  obtain ⟨hmem, hfault, hpc⟩ := h
  have hread : ∀ a, 0x200 ≤ a → s.mem.read a = 0 := fun a ha => by
    rw [hmem]
    exact background_of_ge ha
  refine ⟨hfault, by omega, ?_⟩
  rw [hread _ (by omega), hread _ (by omega)]
  rfl

/-- One Step of such a machine below the end of memory. -/
theorem UnloadedAt.step {n : Nat} {s : State} (h : UnloadedAt n s) (hn : n < 1792) :
    ∃ t, step s = .next t ∧ UnloadedAt (n + 1) t ∧ ∀ k, readCell t k = false := by
  have hpc := h.pc
  refine ⟨_, step_of_runs (h.runs_cls hn) rfl h.fault, ⟨h.mem, h.fault, ?_⟩, clearFb_cell (handlerEntry s)⟩
  change (s.pc + 2).toNat = _
  bv_omega

/-- The first `n + 1` Steps after construction, up to the end of memory. -/
theorem run_construct_unloadedAt (d : Launch) {n : Nat} (hn : n < 1792) :
    ∃ t, core.run (n + 1) (State.construct d) = .next t ∧ UnloadedAt (n + 1) t ∧ ∀ k, readCell t k = false := by
  induction n with
  | zero =>
    have hstart : UnloadedAt 0 (State.construct d) := ⟨rfl, rfl, rfl⟩
    obtain ⟨t, ht, hnext⟩ := hstart.step hn
    exact ⟨t, run_succ ht, hnext⟩
  | succ n ih =>
    obtain ⟨t, hrun, hat, -⟩ := ih (by omega)
    obtain ⟨u, hu, hnext⟩ := hat.step hn
    exact ⟨u, run_succ_last hrun hu, hnext⟩

/-- Settles O29: 1792 words lie between 0x200 and the end of memory, each of them CLS. -/
theorem unloadedMachineRunsOffTheEnd : Obligations.UnloadedMachineRunsOffTheEnd := by
  intro d
  obtain ⟨t, hrun, ⟨-, hfault, hpc⟩, hcells⟩ := run_construct_unloadedAt d (n := 1791) (by decide)
  have hend : t.pc = 0x1000 := BitVec.eq_of_toNat_eq hpc
  refine ⟨t, hrun, hfault, hend, hcells, (step_fetchFault hfault (by omega)).trans ?_⟩
  simp [recordFault, hend]

end Sys2Proof.Machine
end

section
/-! PROOFS. DRW (`44_display.md` R181 to R184): the laws about drawn rows, read in the words of the statements. -/

namespace Sys2Proof.Machine

variable {x y n : Reg} {s t : State}

theorem mem_spriteColumns {col : Nat} : col ∈ spriteColumns ↔ col < 8 :=
  List.mem_range (n := 8)

theorem mem_spriteRows {row : Nat} : row ∈ spriteRows n ↔ row < n.val :=
  List.mem_range

theorem spriteHits_iff_drawHits {k : Fin 2048} :
    spriteHits s (originColumn s x) (originRow s y) (spriteRows n) k.val ↔ DrawHits s x y n k := by
  simp only [spriteHits, rowHits, mem_spriteRows, mem_spriteColumns]
  constructor
  · rintro ⟨row, hrow, col, hcol, hbit, hcell⟩
    exact ⟨row, col, hrow, hcol, hbit, hcell⟩
  · rintro ⟨row, col, hrow, hcol, hbit, hcell⟩
    exact ⟨row, hrow, col, hcol, hbit, hcell⟩

/-- The rows of DRW, drawn from the state with VF cleared; the origin is that of the state before (R181). -/
def drawSprite (x y n : Reg) (s : State) : Except Raise State :=
  drawRows (originColumn s x) (originRow s y) (spriteRows n) (setFlag s 0)

theorem exec_drw_of_ok (h : drawSprite x y n s = .ok t) : exec (.drw x y n) s = .next t :=
  congrArg (conclude s) h

theorem exec_drw_of_error {e : Raise} (h : drawSprite x y n s = .error e) :
    exec (.drw x y n) s = .next (raiseFault s e) :=
  congrArg (conclude s) h

theorem exec_drw_completed (h : exec (.drw x y n) s = .next t) (hnone : t.fault = none) :
    drawSprite x y n s = .ok t := by
  rcases conclude_cases h with hdrawn | ⟨e, -, rfl⟩
  · exact hdrawn
  · cases hnone

theorem drawSprite_ok (h : ∀ row, row < n.val → RowDrawable s x y row) : ∃ t, drawSprite x y n s = .ok t :=
  drawRows_ok (fun row hrow => (h row (mem_spriteRows.mp hrow)).1)
    fun row hrow col hcol => (h row (mem_spriteRows.mp hrow)).2 col (mem_spriteColumns.mp hcol)

/-- A sprite drawn from `s` to `t`. -/
structure Drawn (x y n : Reg) (s t : State) : Prop where
  rows : ∀ row, row < n.val → RowDrawable s x y row
  frame : DrawFrame s t
  cells : ∀ k, readCell t k ≠ readCell s k ↔ DrawHits s x y n k
  flag_of_hit : (∃ k, DrawHits s x y n k ∧ readCell s k = true) → readV t flagReg = 1
  flag_of_no_hit : (¬∃ k, DrawHits s x y n k ∧ readCell s k = true) → readV t flagReg = 0

theorem drawn_of_drawSprite (h : drawSprite x y n s = .ok t) : Drawn x y n s t := by
  obtain ⟨hbyte, hbits, hframe, hcells, hhit, hnoHit⟩ := drawRows_eq_ok List.nodup_range h
  have hflagCells (k : Fin 2048) : readCell (setFlag s 0) k = readCell s k := rfl
  have hhits (k : Fin 2048) : spriteHits (setFlag s 0) (originColumn s x) (originRow s y) (spriteRows n) k.val ↔
      DrawHits s x y n k :=
    ((setFlag_drawFrame s 0).spriteHits _ _ _ _).trans spriteHits_iff_drawHits
  simp only [hflagCells] at hcells hhit hnoHit
  exact {
    rows := fun row hrow => ⟨hbyte row (mem_spriteRows.mpr hrow),
      fun col hcol => hbits row (mem_spriteRows.mpr hrow) col (mem_spriteColumns.mpr hcol)⟩
    frame := (setFlag_drawFrame s 0).trans hframe
    cells := fun k => (hcells k).trans (hhits k)
    flag_of_hit := fun ⟨k, hk, hon⟩ => hhit ⟨k, (hhits k).mpr hk, hon⟩
    flag_of_no_hit := fun hno =>
      (hnoHit fun ⟨k, hk, hon⟩ => hno ⟨k, (hhits k).mp hk, hon⟩).trans (readV_setFlag_same s 0) }

theorem Drawn.cell_of_hit (h : Drawn x y n s t) {k : Fin 2048} (hk : DrawHits s x y n k) :
    readCell t k = !readCell s k :=
  Bool.eq_not_of_ne ((h.cells k).mpr hk)

theorem Drawn.cell_of_no_hit (h : Drawn x y n s t) {k : Fin 2048} (hk : ¬DrawHits s x y n k) :
    readCell t k = readCell s k :=
  not_not.mp fun hne => hk ((h.cells k).mp hne)

/-- A cell went off exactly where a set bit landed on a cell that was on. -/
theorem Drawn.turned_off_iff (h : Drawn x y n s t) (k : Fin 2048) :
    (readCell s k = true ∧ readCell t k = false) ↔ DrawHits s x y n k ∧ readCell s k = true := by
  constructor
  · rintro ⟨hon, hoff⟩
    exact ⟨(h.cells k).mp (by simp [hon, hoff]), hon⟩
  · rintro ⟨hk, hon⟩
    exact ⟨hon, by simp [h.cell_of_hit hk, hon]⟩

theorem Drawn.vNat_flag_eq_one_iff (h : Drawn x y n s t) :
    vNat t flagReg = 1 ↔ ∃ k, DrawHits s x y n k ∧ readCell s k = true := by
  refine ⟨fun hflag => ?_, fun hhit => congrArg BitVec.toNat (h.flag_of_hit hhit)⟩
  by_contra hno
  rw [vNat, h.flag_of_no_hit hno] at hflag
  cases hflag

theorem Drawn.vNat_flag_eq_zero_iff (h : Drawn x y n s t) :
    vNat t flagReg = 0 ↔ ¬∃ k, DrawHits s x y n k ∧ readCell s k = true := by
  refine ⟨fun hflag hhit => ?_, fun hno => congrArg BitVec.toNat (h.flag_of_no_hit hno)⟩
  rw [vNat, h.flag_of_hit hhit] at hflag
  cases hflag

/-- Settles O51: the collision is a cell that was on under a set bit, which is one that went off. -/
theorem drawTogglesCellsAndFlagsCollision : Obligations.DrawTogglesCellsAndFlagsCollision := by
  intro x y n s hrows
  obtain ⟨t, ht⟩ := drawSprite_ok hrows
  have hdrawn := drawn_of_drawSprite ht
  refine ⟨t, exec_drw_of_ok ht, fun _ => hdrawn.cell_of_hit, fun _ => hdrawn.cell_of_no_hit, ?_⟩
  simp only [hdrawn.turned_off_iff]
  exact ⟨hdrawn.vNat_flag_eq_one_iff.mpr, hdrawn.vNat_flag_eq_zero_iff.mpr, hdrawn.frame.regsBut, hdrawn.frame.unchangedBut⟩

/-! ### The first bad pixel -/

/-- Drawable rows are passed, so the rest of the sprite decides. -/
theorem drawRows_append {xPos yPos : Nat} {l₁ l₂ : List Nat} {s : State}
    (ha : ∀ row ∈ l₁, effAddr s row ≤ 0xFFF)
    (hc : ∀ row ∈ l₁, ∀ col ∈ spriteColumns, spriteBit (s.mem.read (effAddr s row)) col = true →
      spriteCell xPos yPos row col < 2048) :
    ∃ u, DrawFrame s u ∧ drawRows xPos yPos (l₁ ++ l₂) s = drawRows xPos yPos l₂ u := by
  induction l₁ generalizing s with
  | nil => exact ⟨s, DrawFrame.refl s, rfl⟩
  | cons row l₁ ih =>
    obtain ⟨v, hv⟩ := drawColumns_ok (hc row List.mem_cons_self) s
    obtain ⟨-, hframe, -⟩ := drawColumns_eq_ok (by decide) hv
    obtain ⟨u, hu, hrest⟩ := ih (s := v)
      (fun r hr => by rw [hframe.effAddr]; exact ha r (List.mem_cons_of_mem _ hr))
      (fun r hr => by rw [hframe.effAddr, hframe.mem]; exact hc r (List.mem_cons_of_mem _ hr))
    refine ⟨u, hframe.trans hu, ?_⟩
    simp only [List.cons_append, drawRows, memRead_ok (ha row List.mem_cons_self), hv, hrest]

/-- In a rising list, what precedes a member is less. -/
theorem append_of_mem_of_rise {l : List Nat} {a : Nat} (hrise : l.Pairwise (· < ·)) (ha : a ∈ l) :
    ∃ l₁ l₂, l = l₁ ++ a :: l₂ ∧ ∀ b ∈ l₁, b < a := by
  obtain ⟨l₁, l₂, rfl⟩ := List.append_of_mem ha
  rw [List.pairwise_append] at hrise
  obtain ⟨-, -, hcross⟩ := hrise
  exact ⟨l₁, l₂, rfl, fun b hb => hcross b hb a List.mem_cons_self⟩

/-- DRW comes to a row all rows before which are drawable. -/
theorem drawSprite_at_row {row : Nat} (hrow : row < n.val) (hbefore : ∀ r, r < row → RowDrawable s x y r) :
    ∃ u rest, DrawFrame s u ∧
      drawSprite x y n s = drawRows (originColumn s x) (originRow s y) (row :: rest) u := by
  obtain ⟨l₁, rest, hsplit, hless⟩ := append_of_mem_of_rise List.pairwise_lt_range (mem_spriteRows.mpr hrow)
  obtain ⟨u, hu, hrest⟩ := drawRows_append (s := setFlag s 0) (xPos := originColumn s x) (yPos := originRow s y)
    (l₂ := row :: rest) (fun r hr => (hbefore r (hless r hr)).1)
    (fun r hr col hcol => (hbefore r (hless r hr)).2 col (mem_spriteColumns.mp hcol))
  refine ⟨u, rest, (setFlag_drawFrame s 0).trans hu, ?_⟩
  rw [drawSprite, spriteRows, hsplit, hrest]

theorem drawRows_memoryFault {xPos yPos row : Nat} {rest : List Nat} (h : 0xFFF < effAddr s row) :
    drawRows xPos yPos (row :: rest) s = .error (.memoryFault, effAddr s row) := by
  simp [drawRows, memRead_fault h]

theorem drawRows_of_drawColumns_error {xPos yPos row : Nat} {rest : List Nat} {e : Raise} (h : effAddr s row ≤ 0xFFF)
    (hcols : drawColumns (s.mem.read (effAddr s row)) xPos yPos row spriteColumns s = .error e) :
    drawRows xPos yPos (row :: rest) s = .error e := by
  simp [drawRows, memRead_ok h, hcols]

/-- Settles O52: the rows before are passed, and in the bad row the columns before. -/
theorem drawFaultsAtFirstBadPixel : Obligations.DrawFaultsAtFirstBadPixel := by
  intro x y n s row hrow hbefore
  obtain ⟨u, rest, hu, hdraw⟩ := drawSprite_at_row hrow hbefore
  have haddr : effAddr u row = effAddr s row := hu.effAddr row
  refine ⟨fun hpast => ?_, fun col hin hcol hbit hoff hfirst => ?_⟩
  · have herror : drawSprite x y n s = .error (.memoryFault, effAddr s row) := by
      rw [hdraw, drawRows_memoryFault (haddr.symm ▸ hpast), haddr]
    exact ⟨_, exec_drw_of_error herror, raiseFault_raised s _ _⟩
  · obtain ⟨l₁, l₂, hsplit, hless⟩ := append_of_mem_of_rise (l := spriteColumns) (by decide) (mem_spriteColumns.mpr hcol)
    have hcols : drawColumns (u.mem.read (effAddr u row)) (originColumn s x) (originRow s y) row spriteColumns u =
        .error (.framebufferFault, cellOf s x y row col) := by
      rw [haddr, hu.mem, hsplit]
      exact drawColumns_first_error (fun c hc => hfirst c (hless c hc)) u hbit hoff
    exact ⟨_, exec_drw_of_error (hdraw.trans (drawRows_of_drawColumns_error (haddr.symm ▸ hin) hcols)),
      raiseFault_raised s _ _⟩

/-! ### Two draws -/

/-- The sprite of a state with the same I, memory and operands lands on the same cells. -/
theorem drawHits_congr {u : State} (hi : u.i = s.i) (hmem : u.mem = s.mem) (hx : readV u x = readV s x)
    (hy : readV u y = readV s y) (k : Fin 2048) : DrawHits u x y n k ↔ DrawHits s x y n k := by
  simp only [DrawHits, spriteBitAt, cellOf, effAddr, vNat, hi, hmem, hx, hy]

theorem rowDrawable_congr {u : State} (hi : u.i = s.i) (hmem : u.mem = s.mem) (hx : readV u x = readV s x)
    (hy : readV u y = readV s y) (row : Nat) : RowDrawable u x y row ↔ RowDrawable s x y row := by
  simp only [RowDrawable, spriteBitAt, cellOf, effAddr, vNat, hi, hmem, hx, hy]

/-- Settles O53: neither operand is VF, so the second draw's sprite is the first's, and toggling twice restores. -/
theorem drawingTwiceRestoresCells : Obligations.DrawingTwiceRestoresCells := by
  intro x y n s t u v hxf hyf hst hnone hufault hui humem hufb huregs huv
  have hfirst := drawn_of_drawSprite (exec_drw_completed hst hnone)
  have hti : t.i = s.i := hfirst.frame.unchangedBut .index (by simp)
  have hi := hui.trans hti
  have hmem := humem.trans hfirst.frame.mem
  have hx : readV u x = readV s x := (huregs x).trans (hfirst.frame.regsBut x (by simpa using hxf))
  have hy : readV u y = readV s y := (huregs y).trans (hfirst.frame.regsBut y (by simpa using hyf))
  have hhits (k : Fin 2048) := drawHits_congr (n := n) hi hmem hx hy k
  have hcells (k : Fin 2048) : readCell u k = readCell t k := readCell_congr hufb k
  obtain ⟨w, hw⟩ := drawSprite_ok fun row hrow => (rowDrawable_congr hi hmem hx hy row).mpr (hfirst.rows row hrow)
  obtain rfl : w = v := Host.Outcome.next.inj ((exec_drw_of_ok hw).symm.trans huv)
  have hsecond := drawn_of_drawSprite hw
  refine ⟨(hsecond.frame.unchangedBut .fault (by simp)).trans hufault, fun k => ?_, ?_, ?_⟩
  · by_cases hk : DrawHits s x y n k
    · rw [hsecond.cell_of_hit ((hhits k).mpr hk), hcells, hfirst.cell_of_hit hk, Bool.not_not]
    · rw [hsecond.cell_of_no_hit fun h => hk ((hhits k).mp h), hcells, hfirst.cell_of_no_hit hk]
  · simpa only [hhits, hcells] using hsecond.vNat_flag_eq_one_iff
  · simpa only [hhits, hcells] using hsecond.vNat_flag_eq_zero_iff

end Sys2Proof.Machine
end
